-- ==== Sys2Proof/Word.lean ====
section
/-! DEFINITION. The word types of the machine: the widths of 00_scope R6. -/

namespace Sys2Proof

/-- A general register, a timer counter or a memory byte: 8 bits (R6 `XLEN`, timer width). -/
abbrev Byte := BitVec 8

/-- A 4-bit operand, a register index or a small immediate (00_scope glossary, R71 `x`, `y`, `n`). -/
abbrev Nibble := BitVec 4

/-- A 12-bit address, which wraps at 4096 (R6 `ALEN`). -/
abbrev Address := BitVec 12

/-- A 16-bit instruction word (R6 `ILEN`). -/
abbrev Word := BitVec 16

end Sys2Proof
end

