-- ==== Sys2Proof/Config.lean ====
section
/-! DEFINITION. What one machine fixes (00_scope R6) and the free values the spec leaves open
(60_exceptions R242, R256, R258). -/

namespace Sys2Proof

/-- One transaction of an agent other than the engine (00_scope R5, R7): a tick of one timer counter by the timer
clock (60_exceptions R241, R242), or a call of the host (R243 to R245, R256). -/
inductive AgentEvent where
  /-- The timer clock ticks the delay timer (R241). -/
  | tickDT
  /-- The timer clock ticks the sound timer (R241). -/
  | tickST
  /-- The host replaces all 16 key flags at once (R256). -/
  | setPressed (keys : Vector Bool 16)
  /-- The host pauses the application of ticks (R243). -/
  | tclkPause
  /-- The host resumes the application of ticks (R244). -/
  | tclkResume
  /-- The host shuts the timer clock down (R245). -/
  | tclkShutdown
  deriving DecidableEq, Repr

namespace Config

/-- Number of bytes of the address space (R6 `MEMSIZE`). -/
def memSize : Nat := 4096

/-- Number of general registers (R6 `NREGS`). -/
def nregs : Nat := 16

/-- Number of slots of the return stack (R6 `STACK_DEPTH`). -/
def stackDepth : Nat := 16

/-- Where the program image starts (R6 `PROG_BASE`). -/
def progBase : Nat := 0x200

/-- The longest program image in bytes (R6 `PROG_MAX`). -/
def progMax : Nat := memSize - progBase

/-- The distance from one glyph of the font table to the next (R6 `FONT_GLYPH_BYTES`). -/
def fontGlyphBytes : Nat := 5

/-- FREE VALUE: the byte the random source gives at its `n`-th draw. Any byte, under no law (60_exceptions R258,
entry 4). -/
opaque rngByte (n : Nat) : Byte

/-- FREE VALUE: what the timer clock and the host do, in order, between the engine steps `n - 1` and `n`. Any number
of transactions of any kind (60_exceptions R242, R247, R256, entry 5). -/
opaque schedule (n : Nat) : List AgentEvent

end Config

end Sys2Proof
end

