-- ==== Sys2Proof/Syntax.lean ====
section
/-! DEFINITION. The instructions of 30_encoding R72, one constructor a row of spec/opcode_table.json. -/

namespace Sys2Proof

/-- One decoded instruction, with the operand fields of R71. The operand types are the fields' widths, so that no
index is out of range (10_state R21). -/
inductive Instr where
  /-- 00E0 CLS, R200. -/
  | cls
  /-- 00EE RET, R144. -/
  | ret
  /-- 1nnn JP nnn, R142. -/
  | jp (nnn : Address)
  /-- 2nnn CALL nnn, R143. -/
  | call (nnn : Address)
  /-- 3xkk SE Vx, kk, R145. -/
  | seImm (x : Nibble) (kk : Byte)
  /-- 4xkk SNE Vx, kk, R146. -/
  | sneImm (x : Nibble) (kk : Byte)
  /-- 5xy0 SE Vx, Vy, R147. -/
  | seReg (x : Nibble) (y : Nibble)
  /-- 6xkk LD Vx, kk, R102. -/
  | ldImm (x : Nibble) (kk : Byte)
  /-- 7xkk ADD Vx, kk, R103. -/
  | addImm (x : Nibble) (kk : Byte)
  /-- 8xy0 LD Vx, Vy, R104. -/
  | ldReg (x : Nibble) (y : Nibble)
  /-- 8xy1 OR Vx, Vy, R105. -/
  | orReg (x : Nibble) (y : Nibble)
  /-- 8xy2 AND Vx, Vy, R106. -/
  | andReg (x : Nibble) (y : Nibble)
  /-- 8xy3 XOR Vx, Vy, R107. -/
  | xorReg (x : Nibble) (y : Nibble)
  /-- 8xy4 ADD Vx, Vy, R108. -/
  | addReg (x : Nibble) (y : Nibble)
  /-- 8xy5 SUB Vx, Vy, R109. -/
  | subReg (x : Nibble) (y : Nibble)
  /-- 8xy6 SHR Vx, R110; `y` is decoded and ignored. -/
  | shr (x : Nibble) (y : Nibble)
  /-- 8xy7 SUBN Vx, Vy, R111. -/
  | subnReg (x : Nibble) (y : Nibble)
  /-- 8xyE SHL Vx, R112; `y` is decoded and ignored. -/
  | shl (x : Nibble) (y : Nibble)
  /-- 9xy0 SNE Vx, Vy, R148. -/
  | sneReg (x : Nibble) (y : Nibble)
  /-- Annn LD I, nnn, R170. -/
  | ldI (nnn : Address)
  /-- Bnnn JP V0, nnn, R149. -/
  | jpV0 (nnn : Address)
  /-- Cxkk RND Vx, kk, R113. -/
  | rnd (x : Nibble) (kk : Byte)
  /-- Dxyn DRW Vx, Vy, n, R201. -/
  | drw (x : Nibble) (y : Nibble) (n : Nibble)
  /-- Ex9E SKP Vx, R215. -/
  | skp (x : Nibble)
  /-- ExA1 SKNP Vx, R216. -/
  | sknp (x : Nibble)
  /-- Fx07 LD Vx, DT, R190. -/
  | ldVxDT (x : Nibble)
  /-- Fx0A LD Vx, K, R217. -/
  | ldVxK (x : Nibble)
  /-- Fx15 LD DT, Vx, R191. -/
  | ldDTVx (x : Nibble)
  /-- Fx18 LD ST, Vx, R192. -/
  | ldSTVx (x : Nibble)
  /-- Fx1E ADD I, Vx, R171. -/
  | addI (x : Nibble)
  /-- Fx29 LD F, Vx, R172. -/
  | ldF (x : Nibble)
  /-- Fx33 LD B, Vx, R173. -/
  | ldB (x : Nibble)
  /-- Fx55 LD [I], Vx, R174. -/
  | storeRegs (x : Nibble)
  /-- Fx65 LD Vx, [I], R175. -/
  | loadRegs (x : Nibble)
  deriving DecidableEq, Repr

end Sys2Proof
end

