-- ==== Sys2Proof/WellFormed.lean ====
section
/-! DEFINITION. What is well formed: the words the decoder recognises (30_encoding R74), family by family, and the
operands an instruction may carry (10_state R21, 30_encoding R76). -/

namespace Sys2Proof

/-! ## Words (30_encoding R74, written from its table of unrecognised words) -/

/-- Family 0: every 0nnn but 00E0 and 00EE is unrecognised. -/
def badOp0 (w : Word) : Bool := w.toNat / 4096 == 0x0 && w != 0x00E0#16 && w != 0x00EE#16

/-- Families 5 and 9: a low nibble other than 0 is unrecognised. -/
def badOp5or9 (w : Word) : Bool := (w.toNat / 4096 == 0x5 || w.toNat / 4096 == 0x9) && w.toNat % 16 != 0

/-- Family 8: the low nibbles 8, 9, A, B, C, D and F are unrecognised. -/
def badOp8 (w : Word) : Bool :=
  w.toNat / 4096 == 0x8 && [0x8, 0x9, 0xA, 0xB, 0xC, 0xD, 0xF].contains (w.toNat % 16)

/-- Family E: only the low bytes 9E and A1 are recognised. -/
def badOpE (w : Word) : Bool := w.toNat / 4096 == 0xE && !([0x9E, 0xA1].contains (w.toNat % 256))

/-- Family F: only the nine low bytes of R72 are recognised. -/
def badOpF (w : Word) : Bool :=
  w.toNat / 4096 == 0xF &&
    !([0x07, 0x0A, 0x15, 0x18, 0x1E, 0x29, 0x33, 0x55, 0x65].contains (w.toNat % 256))

/-- A word is one of the 34 instructions exactly when no line of R74 names it. -/
def recognised (w : Word) : Bool := !(badOp0 w || badOp5or9 w || badOp8 w || badOpE w || badOpF w)

/-! ## Instructions -/

/-- A register index names one of the general registers (10_state R21). -/
def Nibble.isReg (x : Nibble) : Bool := decide (x.toNat < Config.nregs)

/-- An address lies in the address space (20_memory R51). -/
def Address.inSpace (a : Address) : Bool := decide (a.toNat < Config.memSize)

/-- The operands of an instruction name registers and addresses that exist. The operand types already say so
("constructed only from valid decode paths, so out-of-range never occurs by construction", 10_state R21), so every
instruction is well formed: `Laws.wellFormed_all`. -/
def Instr.wellFormed : Instr → Bool
  | .cls => true
  | .ret => true
  | .jp nnn => nnn.inSpace
  | .call nnn => nnn.inSpace
  | .seImm x _ => x.isReg
  | .sneImm x _ => x.isReg
  | .seReg x y => x.isReg && y.isReg
  | .ldImm x _ => x.isReg
  | .addImm x _ => x.isReg
  | .ldReg x y => x.isReg && y.isReg
  | .orReg x y => x.isReg && y.isReg
  | .andReg x y => x.isReg && y.isReg
  | .xorReg x y => x.isReg && y.isReg
  | .addReg x y => x.isReg && y.isReg
  | .subReg x y => x.isReg && y.isReg
  | .shr x y => x.isReg && y.isReg
  | .subnReg x y => x.isReg && y.isReg
  | .shl x y => x.isReg && y.isReg
  | .sneReg x y => x.isReg && y.isReg
  | .ldI nnn => nnn.inSpace
  | .jpV0 nnn => nnn.inSpace
  | .rnd x _ => x.isReg
  | .drw x y _ => x.isReg && y.isReg
  | .skp x => x.isReg
  | .sknp x => x.isReg
  | .ldVxDT x => x.isReg
  | .ldVxK x => x.isReg
  | .ldDTVx x => x.isReg
  | .ldSTVx x => x.isReg
  | .addI x => x.isReg
  | .ldF x => x.isReg
  | .ldB x => x.isReg
  | .storeRegs x => x.isReg
  | .loadRegs x => x.isReg

end Sys2Proof
end

