-- ==== Sys2Proof/Machine/State.lean ====
section
/-! DEFINITION. The state of the machine (10_state R20, 60_exceptions R250, R255, R258), the reasons a transaction can
stop, and the state after reset (70_reset R280). -/

namespace Sys2Proof.Machine

/-- `CORE_STATUS` (10_state R32). -/
inductive CoreStatus where
  | running
  | halted
  deriving DecidableEq, Repr

/-- `TCLK_STATE` (10_state R33, 60_exceptions R246). -/
inductive TclkState where
  | created
  | running
  | stopped
  deriving DecidableEq, Repr

/-- The two timer counters (00_scope R11). -/
inductive TimerId where
  | DT
  | ST
  deriving DecidableEq, Repr

/-- The fault conditions of 60_exceptions R230. -/
inductive FaultCondition where
  | unrecognizedOpcode
  | stackOverflow
  | stackUnderflow
  | programTooLarge
  deriving DecidableEq, Repr

/-- The display grid: 32 rows of 64 pixels, each lit or not (60_exceptions R250). -/
abbrev Grid := Vector (Vector Bool 64) 32

/-- Memory as the bytes that differ from what an unlisted address reads as, at strictly rising addresses
(entry 24; `Memory.wf`). -/
abbrev Memory := List Host.Cell

/-- The machine (10_state R20), with the collaborators' state that instructions observe (R34) and the model's own
record of the free values used. -/
structure State where
  /-- V0..VF (R21); V[15] is the flag VF (R22). -/
  v : Vector Byte 16
  /-- I (R25). -/
  i : Address
  /-- PC (R26). -/
  pc : Address
  /-- SP (R28). -/
  sp : Byte
  /-- STACK[0]..STACK[15] (R29). -/
  stack : Vector Address 16
  /-- DT (R30). -/
  dt : Byte
  /-- ST (R30). -/
  st : Byte
  /-- MEM (20_memory R50, R56). -/
  mem : Memory
  /-- CORE_STATUS (R32). -/
  coreStatus : CoreStatus
  /-- FAULT_CODE (R32). -/
  faultCode : BitVec 4
  /-- FAULT_WORD (R32). -/
  faultWord : Word
  /-- FAULT_PC (R32). -/
  faultPc : Address
  /-- TCLK_STATE (R33). -/
  tclkState : TclkState
  /-- TCLK_PAUSED (R33). -/
  tclkPaused : Bool
  /-- The display grid (60_exceptions R250), row by row. -/
  display : Grid
  /-- The keyboard flags (60_exceptions R255). -/
  keys : Vector Bool 16
  /-- The model's own: bytes drawn from the random source so far (60_exceptions R258, entry 4). -/
  draws : Nat
  /-- The model's own: engine steps taken so far, where the free schedule is read (entry 5). -/
  slot : Nat
  /-- The model's own: what the other agents do before the next steps as far as it is already fixed, one list a step
  (entry 5). -/
  pending : List (List AgentEvent)
  deriving DecidableEq, Repr

/-- Reasons a transaction stops without a next state. -/
inductive Fault where
  /-- Raised by the host's `load` for more than 3584 bytes: the machine never starts (20_memory R59, 60_exceptions
  R237). Safe: no step is performed. -/
  | programTooLarge
  /-- Raised by CALL and RET where SP is above 16, so that no stack slot has that index. The spec says SP never leaves
  0..16 (10_state R28), so no run reaches it (entry 12). Safe: the model stops. -/
  | noSuchStackSlot
  deriving DecidableEq, Repr

/-- Reasons the model has no meaning for an instruction. -/
inductive Refusal where
  /-- Raised by no arm of `exec`: every instruction of the table has its meaning. Safe: the model stops. -/
  | notModelled (mnemonic : String)
  deriving DecidableEq, Repr

/-- The machine right after reset (10_state R20, 70_reset R280), no program loaded. -/
def State.reset : State where
  v := Vector.replicate 16 0x00#8
  i := 0x000#12
  pc := 0x200#12
  sp := 0x00#8
  stack := Vector.replicate 16 0x000#12
  dt := 0x00#8
  st := 0x00#8
  mem := []
  coreStatus := .running
  faultCode := 0x0#4
  faultWord := 0x0000#16
  faultPc := 0x000#12
  tclkState := .running
  tclkPaused := false
  display := Vector.replicate 32 (Vector.replicate 64 false)
  keys := Vector.replicate 16 false
  draws := 0
  slot := 0
  pending := []

end Sys2Proof.Machine
end

