-- ==== Sys2Proof/Machine/Ops.lean ====
section
/-! DEFINITION. The named operations over memory, registers, the stack, the timer counters and the collaborators'
ports (00_scope R9, R11), and taking a fault (60_exceptions R232). -/

namespace Sys2Proof.Machine

/-! ## Memory (20_memory) -/

/-- Glyphs 0 to 7 of the font table (20_memory R57). -/
def fontLow : List Byte :=
  [0xF0, 0x90, 0x90, 0x90, 0xF0] ++ [0x20, 0x60, 0x20, 0x20, 0x70] ++
  [0xF0, 0x10, 0xF0, 0x80, 0xF0] ++ [0xF0, 0x10, 0xF0, 0x10, 0xF0] ++
  [0x90, 0x90, 0xF0, 0x10, 0x10] ++ [0xF0, 0x80, 0xF0, 0x10, 0xF0] ++
  [0xF0, 0x80, 0xF0, 0x90, 0xF0] ++ [0xF0, 0x10, 0x20, 0x40, 0x40]

/-- Glyphs 8 to F of the font table (20_memory R57). -/
def fontHigh : List Byte :=
  [0xF0, 0x90, 0xF0, 0x90, 0xF0] ++ [0xF0, 0x90, 0xF0, 0x10, 0xF0] ++
  [0xF0, 0x90, 0xF0, 0x90, 0x90] ++ [0xE0, 0x90, 0xE0, 0x90, 0xE0] ++
  [0xF0, 0x80, 0x80, 0x80, 0xF0] ++ [0xE0, 0x90, 0x90, 0x90, 0xE0] ++
  [0xF0, 0x80, 0xF0, 0x80, 0xF0] ++ [0xF0, 0x80, 0xF0, 0x80, 0x80]

/-- The 80 bytes of the font table, glyph `d` at `5 * d` (20_memory R57, entry 3). -/
def fontTable : List Byte := fontLow ++ fontHigh

/-- What an address that nothing has written reads as: the font table from 0x000, zero elsewhere (20_memory R56,
entries 2 and 24). -/
def initialByte (a : Nat) : Byte := fontTable.getD a 0x00#8

/-- The byte at an address. -/
def Memory.read : Memory → Nat → Byte
  | [], a => initialByte a
  | (b, w) :: m, a => if a = b then w else if a < b then initialByte a else Memory.read m a

/-- Put `(a, w)` before `m`, unless the byte is what the unlisted address reads as. -/
def Memory.place (a : Nat) (w : Byte) (m : Memory) : Memory := if w = initialByte a then m else (a, w) :: m

/-- Write a byte, keeping the canonical form. -/
def Memory.write : Memory → Nat → Byte → Memory
  | [], a, w => Memory.place a w []
  | (b, u) :: m, a, w =>
    if a < b then Memory.place a w ((b, u) :: m)
    else if a = b then Memory.place a w m
    else (b, u) :: Memory.write m a w

/-- Write bytes at rising addresses from `a`. -/
def Memory.writeBytes (m : Memory) (a : Nat) : List Byte → Memory
  | [] => m
  | b :: bs => Memory.writeBytes (Memory.write m a b) (a + 1) bs

/-- The canonical form: addresses strictly rising and inside the address space, and no entry equal to what the
unlisted address reads as. -/
abbrev Memory.wf (m : Memory) : Prop :=
  m.Pairwise (fun c d => c.1 < d.1) ∧ ∀ c ∈ m, c.1 < Config.memSize ∧ c.2 ≠ initialByte c.1

/-- `MemRead(a, 1)` (20_memory R52). An address has 12 bits, so it is in the space (R51). -/
def State.memRead (s : State) (a : Address) : Byte := Memory.read s.mem a.toNat

/-- `MemWrite(a, 1, w)` (20_memory R52); no byte is protected (R58). -/
def State.memWrite (s : State) (a : Address) (w : Byte) : State := { s with mem := Memory.write s.mem a.toNat w }

/-- `MemRead(a +_12 k, 1)` for `k` in `0..n-1`, in rising order (20_memory R60, 45_display R201). -/
def State.readBytes (s : State) (a : Address) : Nat → List Byte
  | 0 => []
  | n + 1 => s.memRead a :: State.readBytes s (a + 1#12) n

/-- `Fetch(pc)`: two bytes, big-endian, the second at `pc +_12 1` (20_memory R54). -/
def State.fetch (s : State) (pc : Address) : Word := wordOfBytes (s.memRead pc) (s.memRead (pc + 1#12))

/-- Store a word where `Fetch` reads it (20_memory R54). -/
def State.putWord (s : State) (pc : Address) (w : Word) : State :=
  (s.memWrite pc (highByte w)).memWrite (pc + 1#12) (lowByte w)

/-! ## Registers (10_state) -/

/-- `V[x]` (R21). -/
def State.getV (s : State) (x : Nibble) : Byte := s.v[x.toNat]'(x.isLt)

/-- `V[x] <- b` (R21); no register is hardwired. -/
def State.setV (s : State) (x : Nibble) (b : Byte) : State := { s with v := s.v.set x.toNat b x.isLt }

/-- `VF <- b` (R22). -/
def State.setVF (s : State) (b : Byte) : State := s.setV 0xF#4 b

/-- `I <- a` (R25). -/
def State.setI (s : State) (a : Address) : State := { s with i := a }

/-- `PC <- a` (R26, R27). -/
def State.setPc (s : State) (a : Address) : State := { s with pc := a }

/-- `PC <- PC +_12 2`: the step's advance (R26), and once more for a skip (42_control_flow R141). -/
def State.advancePc (s : State) : State := s.setPc (s.pc + 2#12)

/-- `PC <- PC -_12 2`: the rewind of Fx0A (R27, 46_keyboard R217). -/
def State.rewindPc (s : State) : State := s.setPc (s.pc - 2#12)

/-- A skip if the condition holds (42_control_flow R141). -/
def State.skipIf (s : State) (c : Bool) : State := if c then s.advancePc else s

/-- `V[k] <- MemRead(a +_12 k, 1)` for `k` in `0..n-1`, in rising order (43_index_memory R175). -/
def State.loadRange (s : State) (a : Address) : Nat → State
  | 0 => s
  | k + 1 => (State.loadRange s a k).setV (BitVec.ofNat 4 k) (s.memRead (a + BitVec.ofNat 12 k))

/-- `MemWrite(a +_12 k, 1, V[k])` for `k` in `0..n-1`, in rising order (43_index_memory R174). -/
def State.storeRange (s : State) (a : Address) : Nat → State
  | 0 => s
  | k + 1 => (State.storeRange s a k).memWrite (a + BitVec.ofNat 12 k) (s.getV (BitVec.ofNat 4 k))

/-! ## The return stack (10_state R28, R29) -/

/-- `SP <- b` (R28). -/
def State.setSp (s : State) (b : Byte) : State := { s with sp := b }

/-- `STACK[k]`, where there is such a slot (R29). -/
def State.readSlot (s : State) (k : Byte) : Option Address := s.stack[k.toNat]?

/-- `STACK[k] <- a` (R29); the caller has seen that there is such a slot. -/
def State.writeSlot (s : State) (k : Byte) (a : Address) : State :=
  { s with stack := s.stack.setIfInBounds k.toNat a }

/-! ## Timer counters (00_scope R11, 10_state R30) -/

/-- `TimerGet(T)`. -/
def State.timerGet (s : State) : TimerId → Byte
  | .DT => s.dt
  | .ST => s.st

/-- `TimerLoad(T, b)`. -/
def State.timerLoad (s : State) : TimerId → Byte → State
  | .DT, b => { s with dt := b }
  | .ST, b => { s with st := b }

/-- The `tone` output is asserted exactly while `ST != 0` (60_exceptions R248). -/
def State.tone (s : State) : Bool := s.st != 0x00#8

/-! ## Collaborators (60_exceptions R250 to R258) -/

/-- The byte the next `Rng()` gives: a free value (60_exceptions R258, entry 4). -/
def State.rngValue (s : State) : Byte := Config.rngByte s.draws

/-- One draw has been made. -/
def State.rngDrawn (s : State) : State := { s with draws := s.draws + 1 }

/-- `KeyPressed(k)` (60_exceptions R255). -/
def State.keyPressed (s : State) (k : Nibble) : Bool := s.keys[k.toNat]'(k.isLt)

/-- `FirstPressed()`: the lowest index whose flag is set, or none (60_exceptions R257). -/
def State.firstPressed (s : State) : Option Nibble :=
  ((List.range 16).map (BitVec.ofNat 4)).find? s.keyPressed

/-- The display grid becomes `g`. -/
def State.setDisplay (s : State) (g : Grid) : State := { s with display := g }

/-! ## Faults (60_exceptions) -/

/-- The fault codes of R230. -/
def FaultCondition.code : FaultCondition → BitVec 4
  | .unrecognizedOpcode => 0x1#4
  | .stackOverflow => 0x2#4
  | .stackUnderflow => 0x3#4
  | .programTooLarge => 0x4#4

/-- Fault entry (R232): the step's writes are undone, which here is the program counter alone, and the four status
fields are written. Nothing else changes; there is no vector and no return (R240). -/
def State.enterFault (s : State) (f : FaultCondition) (w : Word) (pc0 : Address) : State :=
  { s with pc := pc0, coreStatus := .halted, faultCode := f.code, faultWord := w, faultPc := pc0 }

/-- The address of the instruction being executed: `pc0`, where PC holds `pc0 +_12 2` (30_encoding R70). -/
def State.currentPc (s : State) : Address := s.pc - 2#12

/-- `raise F(w, pc0)` inside the execution of `i`. Its word is `encode i` (entry 22). -/
def State.raise (s : State) (f : FaultCondition) (i : Instr) : State := s.enterFault f (encode i) s.currentPc

/-- What `execute_one` answers its caller. -/
inductive StepResult where
  | ok
  | fault (code : BitVec 4) (word : Word) (addr : Address)
  deriving DecidableEq, Repr

/-- The answer of the `execute_one` that left this state: `Fault` exactly when the engine is halted (R231, R233,
entry 8). -/
def State.result (s : State) : StepResult :=
  match s.coreStatus with
  | .running => .ok
  | .halted => .fault s.faultCode s.faultWord s.faultPc

end Sys2Proof.Machine
end

