-- ==== Sys2Proof/Machine/Agents.lean ====
section
/-! DEFINITION. The other agents: the timer clock and the host (60_exceptions R241 to R249, R256, R260). -/

namespace Sys2Proof.Machine

/-- What the timer clock and the host may change between steps: the counters, the clock's control state and the
keyboard (60_exceptions R260, R261). -/
structure AgentView where
  dt : Byte
  st : Byte
  tclkState : TclkState
  tclkPaused : Bool
  keys : Vector Bool 16
  deriving DecidableEq, Repr

/-- One tick of a counter: `if T > 0: T <- T - 1` (R241). -/
def tickByte (b : Byte) : Byte := if b = 0x00#8 then b else b - 1#8

/-- Ticks are applied only while the clock is running and not paused (R241). -/
def AgentView.ticking (a : AgentView) : Bool := a.tclkState == .running && !a.tclkPaused

/-- Shutdown: allowed in every state, final, and idempotent (R245, R246). -/
def AgentView.shutdown (a : AgentView) : AgentView := { a with tclkState := .stopped }

/-- One transaction of another agent. Ticks that fall due while the clock does not tick are dropped (R243). -/
def AgentView.apply (a : AgentView) : AgentEvent → AgentView
  | .tickDT => if a.ticking then { a with dt := tickByte a.dt } else a
  | .tickST => if a.ticking then { a with st := tickByte a.st } else a
  | .setPressed keys => { a with keys := keys }
  | .tclkPause => { a with tclkPaused := true }
  | .tclkResume => { a with tclkPaused := false }
  | .tclkShutdown => a.shutdown

/-- The agents' part of a state. -/
def State.agentView (s : State) : AgentView where
  dt := s.dt
  st := s.st
  tclkState := s.tclkState
  tclkPaused := s.tclkPaused
  keys := s.keys

/-- A state with another agents' part. -/
def State.withAgentView (s : State) (a : AgentView) : State :=
  { s with dt := a.dt, st := a.st, tclkState := a.tclkState, tclkPaused := a.tclkPaused, keys := a.keys }

/-- The other agents' transactions land, in order. Nothing else of the state changes (R261). -/
def State.land (s : State) (evs : List AgentEvent) : State := s.withAgentView (evs.foldl AgentView.apply s.agentView)

/-- What lands before the next engine step: what is already fixed, else the free schedule (entry 5). -/
def State.landing (s : State) : List AgentEvent :=
  match s.pending with
  | [] => Config.schedule s.slot
  | evs :: _ => evs

/-- The next step's arrivals are taken: the model's own record moves on. -/
def State.takeSlot (s : State) : State := { s with slot := s.slot + 1, pending := s.pending.tail }

/-- The state the engine finds when its next step begins: what lands before it has landed (entry 6). -/
def State.arrived (s : State) : State := s.takeSlot.land s.landing

/-- Starting the clock, part of construction: `Created -> Running` only (R246). -/
def State.tclkStart (s : State) : State :=
  match s.tclkState with
  | .created => { s with tclkState := .running }
  | .running => s
  | .stopped => s

end Sys2Proof.Machine
end

