-- ==== Sys2Proof/Machine/Operands.lean ====
section
/-! DEFINITION. The operand forms: how an instruction's fields and registers become an address, a key index or a
digit (30_encoding R76, 43_index_memory R176, 46_keyboard R218). -/

namespace Sys2Proof.Machine

/-- `I +_12 k`, the one data addressing mode (43_index_memory R176). -/
def State.ea (s : State) (k : Nat) : Address := s.i + BitVec.ofNat 12 k

/-- `zext_12(V[x])`. -/
def State.vAsAddress (s : State) (x : Nibble) : Address := (s.getV x).zeroExtend 12

/-- `nnn +_12 zext_12(V[0])`, the target of Bnnn (42_control_flow R149). -/
def State.offsetTarget (s : State) (nnn : Address) : Address := nnn + s.vAsAddress 0x0#4

/-- `(5 * zext_12(V[x])) mod 4096`, not masked to a digit (43_index_memory R172). -/
def State.glyphAddress (s : State) (x : Nibble) : Address :=
  BitVec.ofNat 12 (Config.fontGlyphBytes * (s.getV x).toNat)

/-- `V[x] & 0x0F`, the key an Ex9E or ExA1 names (46_keyboard R218). -/
def State.keyIndex (s : State) (x : Nibble) : Nibble := (s.getV x).truncate 4

/-- `v div 100` (43_index_memory R173). -/
def hundreds (v : Byte) : Byte := BitVec.ofNat 8 (v.toNat / 100)

/-- `(v div 10) mod 10` (43_index_memory R173). -/
def tens (v : Byte) : Byte := BitVec.ofNat 8 (v.toNat / 10 % 10)

/-- `v mod 10` (43_index_memory R173). -/
def ones (v : Byte) : Byte := BitVec.ofNat 8 (v.toNat % 10)

/-- How many registers Fx55 and Fx65 move: `x + 1` (43_index_memory R174, R175). -/
def rangeCount (x : Nibble) : Nat := x.toNat + 1

end Sys2Proof.Machine
end

