-- ==== Sys2Proof/Machine/Flags.lean ====
section
/-! DEFINITION. The flag computations (10_state R22, R31; 41_alu R108 to R112) and the order in which a result and the
flag are written (41_alu R101). -/

namespace Sys2Proof.Machine

/-- The byte a flag is written as: 1 or 0. -/
def flagByte (c : Bool) : Byte := if c then 0x01#8 else 0x00#8

/-- The carry of `a + b`: the 9-bit sum is above 255 (41_alu R108). -/
def carryOfAdd (a b : Byte) : Bool := decide (255 < a.toNat + b.toNat)

/-- The not-borrow of `a - b`: `a >= b`, so 1 for equal operands (41_alu R109, R111). -/
def notBorrow (a b : Byte) : Bool := decide (b.toNat ≤ a.toNat)

/-- The bit a right shift moves out, taken before the shift (41_alu R110). -/
def shiftedOutRight (a : Byte) : Bool := a.getLsbD 0

/-- The bit a left shift moves out, taken before the shift (41_alu R112). -/
def shiftedOutLeft (a : Byte) : Bool := a.getLsbD 7

/-- Write `V[x]`, then the flag: with `x = 15` the flag stays (10_state R22, 41_alu R101). -/
def State.setResultAndFlag (s : State) (x : Nibble) (r : Byte) (c : Bool) : State := (s.setV x r).setVF (flagByte c)

end Sys2Proof.Machine
end

