-- ==== Sys2Proof/Machine/Alu.lean ====
section
/-! DEFINITION. The ALU and register instructions (41_alu). Each runs after the step's advance of PC (30_encoding
R70); right-hand sides read the state before the first write (00_scope R10). -/

namespace Sys2Proof.Machine

/-- 6xkk LD Vx, kk (R102). -/
def execLdImm (x : Nibble) (kk : Byte) (s : State) : Host.Outcome State Fault Refusal := .next (s.setV x kk)

/-- 7xkk ADD Vx, kk (R103): no flag. -/
def execAddImm (x : Nibble) (kk : Byte) (s : State) : Host.Outcome State Fault Refusal :=
  .next (s.setV x (s.getV x + kk))

/-- 8xy0 LD Vx, Vy (R104). -/
def execLdReg (x y : Nibble) (s : State) : Host.Outcome State Fault Refusal := .next (s.setV x (s.getV y))

/-- 8xy1 OR Vx, Vy (R105): VF is not reset. -/
def execOrReg (x y : Nibble) (s : State) : Host.Outcome State Fault Refusal :=
  .next (s.setV x (s.getV x ||| s.getV y))

/-- 8xy2 AND Vx, Vy (R106). -/
def execAndReg (x y : Nibble) (s : State) : Host.Outcome State Fault Refusal :=
  .next (s.setV x (s.getV x &&& s.getV y))

/-- 8xy3 XOR Vx, Vy (R107). -/
def execXorReg (x y : Nibble) (s : State) : Host.Outcome State Fault Refusal :=
  .next (s.setV x (s.getV x ^^^ s.getV y))

/-- 8xy4 ADD Vx, Vy (R108): VF is the carry. -/
def execAddReg (x y : Nibble) (s : State) : Host.Outcome State Fault Refusal :=
  .next (s.setResultAndFlag x (s.getV x + s.getV y) (carryOfAdd (s.getV x) (s.getV y)))

/-- 8xy5 SUB Vx, Vy (R109): VF is the not-borrow of `V[x] - V[y]`. -/
def execSubReg (x y : Nibble) (s : State) : Host.Outcome State Fault Refusal :=
  .next (s.setResultAndFlag x (s.getV x - s.getV y) (notBorrow (s.getV x) (s.getV y)))

/-- 8xy6 SHR Vx (R110): in place, `V[y]` is not read; VF is the old bit 0. -/
def execShr (x _y : Nibble) (s : State) : Host.Outcome State Fault Refusal :=
  .next (s.setResultAndFlag x (s.getV x >>> 1) (shiftedOutRight (s.getV x)))

/-- 8xy7 SUBN Vx, Vy (R111): VF is the not-borrow of `V[y] - V[x]`. -/
def execSubnReg (x y : Nibble) (s : State) : Host.Outcome State Fault Refusal :=
  .next (s.setResultAndFlag x (s.getV y - s.getV x) (notBorrow (s.getV y) (s.getV x)))

/-- 8xyE SHL Vx (R112): in place, `V[y]` is not read; VF is the old bit 7. -/
def execShl (x _y : Nibble) (s : State) : Host.Outcome State Fault Refusal :=
  .next (s.setResultAndFlag x (s.getV x <<< 1) (shiftedOutLeft (s.getV x)))

/-- Cxkk RND Vx, kk (R113): one fresh draw, a free value (60_exceptions R258). -/
def execRnd (x : Nibble) (kk : Byte) (s : State) : Host.Outcome State Fault Refusal :=
  .next (s.rngDrawn.setV x (s.rngValue &&& kk))

end Sys2Proof.Machine
end

