-- ==== Sys2Proof/Machine/Control.lean ====
section
/-! DEFINITION. Control transfer (42_control_flow). PC already holds the next sequential address (R140). -/

namespace Sys2Proof.Machine

/-- 1nnn JP nnn (R142). -/
def execJp (nnn : Address) (s : State) : Host.Outcome State Fault Refusal := .next (s.setPc nnn)

/-- 2nnn CALL nnn (R143): the 17th nested call raises StackOverflow (60_exceptions R235). A stack pointer above 16,
which no run reaches (10_state R28), has no slot (entry 12). -/
def execCall (nnn : Address) (s : State) : Host.Outcome State Fault Refusal :=
  if s.sp = 16#8 then .next (s.raise .stackOverflow (.call nnn))
  else if s.sp.toNat < Config.stackDepth then
    .next (((s.writeSlot s.sp s.pc).setSp (s.sp + 1#8)).setPc nnn)
  else .fault .noSuchStackSlot

/-- 00EE RET (R144): an empty stack raises StackUnderflow (60_exceptions R236). -/
def execRet (s : State) : Host.Outcome State Fault Refusal :=
  if s.sp = 0#8 then .next (s.raise .stackUnderflow .ret)
  else
    match s.readSlot (s.sp - 1#8) with
    | some a => .next ((s.setSp (s.sp - 1#8)).setPc a)
    | none => .fault .noSuchStackSlot

/-- 3xkk SE Vx, kk (R145). -/
def execSeImm (x : Nibble) (kk : Byte) (s : State) : Host.Outcome State Fault Refusal :=
  .next (s.skipIf (s.getV x == kk))

/-- 4xkk SNE Vx, kk (R146). -/
def execSneImm (x : Nibble) (kk : Byte) (s : State) : Host.Outcome State Fault Refusal :=
  .next (s.skipIf (s.getV x != kk))

/-- 5xy0 SE Vx, Vy (R147). -/
def execSeReg (x y : Nibble) (s : State) : Host.Outcome State Fault Refusal :=
  .next (s.skipIf (s.getV x == s.getV y))

/-- 9xy0 SNE Vx, Vy (R148). -/
def execSneReg (x y : Nibble) (s : State) : Host.Outcome State Fault Refusal :=
  .next (s.skipIf (s.getV x != s.getV y))

/-- Bnnn JP V0, nnn (R149): the register is always V0. -/
def execJpV0 (nnn : Address) (s : State) : Host.Outcome State Fault Refusal := .next (s.setPc (s.offsetTarget nnn))

end Sys2Proof.Machine
end

