-- ==== Sys2Proof/Machine/Display.lean ====
section
/-! DEFINITION. The display grid's operations (60_exceptions R250, R251) and the display instructions (45_display). -/

namespace Sys2Proof.Machine

/-- A pixel of the grid: its column and its row. -/
abbrev Pixel := Fin 64 × Fin 32

/-- Is the pixel lit? -/
def Grid.lit (g : Grid) (p : Pixel) : Bool := g[p.2][p.1]

/-- Invert one pixel: XOR with 1 (45_display R202). -/
def Grid.flip (g : Grid) (p : Pixel) : Grid := g.set p.2 (g[p.2].set p.1 (!Grid.lit g p))

/-- The grid with every pixel unlit. -/
def Grid.blank : Grid := Vector.replicate 32 (Vector.replicate 64 false)

/-- Where sprite row `r` and bit column `c` land: `((x8 + c) mod 64, (y8 + r) mod 32)` (45_display R202). -/
def spritePixel (x8 y8 : Byte) (r c : Nat) : Pixel := (Fin.ofNat 64 (x8.toNat + c), Fin.ofNat 32 (y8.toNat + r))

/-- The pixels the 1 bits of one sprite row land on, bit 7 leftmost (45_display R202). -/
def rowHits (x8 y8 : Byte) (r : Nat) (row : Byte) : List Pixel :=
  ((List.range 8).filter fun c => row.getLsbD (7 - c)).map (spritePixel x8 y8 r)

/-- The pixels the 1 bits of a sprite land on, its rows numbered from `r`. -/
def spriteHits (x8 y8 : Byte) : Nat → List Byte → List Pixel
  | _, [] => []
  | r, row :: rows => rowHits x8 y8 r row ++ spriteHits x8 y8 (r + 1) rows

/-- The grid after `draw(x8, y8, rows)`: each pixel under a 1 bit is inverted (45_display R202). -/
def Grid.draw (g : Grid) (x8 y8 : Byte) (rows : List Byte) : Grid := (spriteHits x8 y8 0 rows).foldl Grid.flip g

/-- What `draw` returns: some 1 bit of the sprite lands on a lit pixel (45_display R203). -/
def Grid.collides (g : Grid) (x8 y8 : Byte) (rows : List Byte) : Bool := (spriteHits x8 y8 0 rows).any (Grid.lit g)

/-- 00E0 CLS (R200): every pixel unlit. -/
def execCls (s : State) : Host.Outcome State Fault Refusal := .next (s.setDisplay Grid.blank)

/-- Dxyn DRW Vx, Vy, n (R201): `n` rows from I, drawn at the values of V[x] and V[y]; VF is the collision. -/
def execDrw (x y n : Nibble) (s : State) : Host.Outcome State Fault Refusal :=
  .next
    ((s.setDisplay (Grid.draw s.display (s.getV x) (s.getV y) (s.readBytes s.i n.toNat))).setVF
      (flagByte (Grid.collides s.display (s.getV x) (s.getV y) (s.readBytes s.i n.toNat))))

end Sys2Proof.Machine
end

