-- ==== Sys2Proof/Machine/IndexMemory.lean ====
section
/-! DEFINITION. Index register and memory instructions (43_index_memory). -/

namespace Sys2Proof.Machine

/-- Annn LD I, nnn (R170). -/
def execLdI (nnn : Address) (s : State) : Host.Outcome State Fault Refusal := .next (s.setI nnn)

/-- Fx1E ADD I, Vx (R171): modulo 4096, VF is not written. -/
def execAddI (x : Nibble) (s : State) : Host.Outcome State Fault Refusal := .next (s.setI (s.i + s.vAsAddress x))

/-- Fx29 LD F, Vx (R172). -/
def execLdF (x : Nibble) (s : State) : Host.Outcome State Fault Refusal := .next (s.setI (s.glyphAddress x))

/-- Fx33 LD B, Vx (R173): three digits at I, I + 1, I + 2; I is not changed. -/
def execLdB (x : Nibble) (s : State) : Host.Outcome State Fault Refusal :=
  .next
    (((s.memWrite (s.ea 0) (hundreds (s.getV x))).memWrite (s.ea 1) (tens (s.getV x))).memWrite (s.ea 2)
      (ones (s.getV x)))

/-- Fx55 LD [I], Vx (R174): V0..Vx to memory, then I advances by `x + 1`. -/
def execStoreRegs (x : Nibble) (s : State) : Host.Outcome State Fault Refusal :=
  .next ((s.storeRange s.i (rangeCount x)).setI (s.ea (rangeCount x)))

/-- Fx65 LD Vx, [I] (R175): V0..Vx from memory, then I advances by `x + 1`. -/
def execLoadRegs (x : Nibble) (s : State) : Host.Outcome State Fault Refusal :=
  .next ((s.loadRange s.i (rangeCount x)).setI (s.ea (rangeCount x)))

end Sys2Proof.Machine
end

