-- ==== Sys2Proof/Machine/Keyboard.lean ====
section
/-! DEFINITION. Keyboard instructions (46_keyboard). -/

namespace Sys2Proof.Machine

/-- Ex9E SKP Vx (R215). -/
def execSkp (x : Nibble) (s : State) : Host.Outcome State Fault Refusal :=
  .next (s.skipIf (s.keyPressed (s.keyIndex x)))

/-- ExA1 SKNP Vx (R216). -/
def execSknp (x : Nibble) (s : State) : Host.Outcome State Fault Refusal :=
  .next (s.skipIf (!s.keyPressed (s.keyIndex x)))

/-- The state after Fx0A has seen the keyboard (R217): with no key, PC goes back; else `V[x] <- zext_8(k)`. -/
def State.waitKey (s : State) (x : Nibble) : Option Nibble → State
  | none => s.rewindPc
  | some k => s.setV x (k.zeroExtend 8)

/-- Fx0A LD Vx, K (R217): one look at the keyboard; the lowest pressed key is taken. -/
def execLdVxK (x : Nibble) (s : State) : Host.Outcome State Fault Refusal := .next (s.waitKey x s.firstPressed)

end Sys2Proof.Machine
end

