-- ==== Sys2Proof/Machine/Timers.lean ====
section
/-! DEFINITION. Timer instructions (44_timer_insns): each is one timer transaction. -/

namespace Sys2Proof.Machine

/-- Fx07 LD Vx, DT (R190). -/
def execLdVxDT (x : Nibble) (s : State) : Host.Outcome State Fault Refusal := .next (s.setV x (s.timerGet .DT))

/-- Fx15 LD DT, Vx (R191). -/
def execLdDTVx (x : Nibble) (s : State) : Host.Outcome State Fault Refusal := .next (s.timerLoad .DT (s.getV x))

/-- Fx18 LD ST, Vx (R192). -/
def execLdSTVx (x : Nibble) (s : State) : Host.Outcome State Fault Refusal := .next (s.timerLoad .ST (s.getV x))

end Sys2Proof.Machine
end

