-- ==== Sys2Proof/Machine/Execute.lean ====
section
/-! DEFINITION. `execute_one` (30_encoding R70), and one step of all the agents. -/

namespace Sys2Proof.Machine

/-- Decode and execute the word `w` fetched at `pc0 = PC`: an unrecognised word is a fault before PC moves
(60_exceptions R234); else PC advances by 2 and the instruction has its effect (30_encoding R70). -/
def State.runWord (s : State) (w : Word) : Host.Outcome State Fault Refusal :=
  match decodeWord w with
  | .error _ => .next (s.enterFault .unrecognizedOpcode w s.pc)
  | .ok i => exec i s.advancePc

/-- `execute_one()` (30_encoding R70). A halted engine changes nothing and answers its recorded fault again
(60_exceptions R233, entry 8). -/
def State.executeOne (s : State) : Host.Outcome State Fault Refusal :=
  match s.coreStatus with
  | .halted => .next s
  | .running => s.runWord (s.fetch s.pc)

/-- The given transactions of the other agents land, then the engine steps (60_exceptions R260, entry 6). -/
def State.stepWith (s : State) (evs : List AgentEvent) : Host.Outcome State Fault Refusal :=
  (s.takeSlot.land evs).executeOne

end Sys2Proof.Machine
end

