-- ==== Sys2Proof/Machine/Step.lean ====
section
/-! DEFINITION. One step of the machine, and where the host puts the instruction the next step runs. -/

namespace Sys2Proof.Machine

/-- What the other agents do before this step lands, then `execute_one` runs. -/
def step (s : State) : Host.Outcome State Fault Refusal := s.stepWith s.landing

/-- The state with the table's word `w` of `nbits` bits where the next step fetches: at PC, big-endian (20_memory
R54), the engine running (10_state R32). -/
def State.withFetchWord (s : State) (nbits w : Nat) : State :=
  { s.putWord s.pc (BitVec.ofNat 16 (w % 2 ^ nbits)) with coreStatus := .running }

end Sys2Proof.Machine
end

