-- ==== Sys2Proof/Machine/Boot.lean ====
section
/-! DEFINITION. Construction and the host's load (20_memory R59, 70_reset R280, R283). -/

namespace Sys2Proof.Machine

/-- The machine constructed, before the timer clock is started (70_reset R283 (1)). -/
def State.constructed : State := { State.reset with tclkState := .created }

/-- `load(bytes)` (20_memory R59): the program image at 0x200, or `ProgramTooLarge` and nothing written. -/
def State.load (s : State) (bytes : List Byte) : Host.Outcome State Fault Refusal :=
  if Config.progMax < bytes.length then .fault .programTooLarge
  else .next { s with mem := Memory.writeBytes s.mem Config.progBase bytes }

/-- Boot: construction, load, the clock started (70_reset R283 (1) to (3)). -/
def boot (bytes : List Byte) : Host.Outcome State Fault Refusal :=
  match State.constructed.load bytes with
  | .next s => .next s.tclkStart
  | .fault f => .fault f
  | .refused r => .refused r

end Sys2Proof.Machine
end

