-- ==== Sys2Proof/Safety.lean ====
section
/-! DEFINITION. The terms claims are stated in: the parts of a state and frames over them, who reads and writes what
(10_state R23), the machine's invariant, the end of a run (70_reset R291), and runs under a given schedule. -/

namespace Sys2Proof.Machine

/-! ## Parts of a state, and frames -/

/-- The parts of a state, as 10_state R20 and R34 list them. -/
inductive Part where
  | v
  | i
  | pc
  | sp
  | stack
  | dt
  | st
  | mem
  | core
  | tclk
  | display
  | keys
  | draws
  | schedule
  deriving DecidableEq, Repr

/-- A part is the same in both states. Memory is compared by reading every byte. -/
def Part.same : Part → State → State → Prop
  | .v, s, t => ∀ x, t.getV x = s.getV x
  | .i, s, t => t.i = s.i
  | .pc, s, t => t.pc = s.pc
  | .sp, s, t => t.sp = s.sp
  | .stack, s, t => t.stack = s.stack
  | .dt, s, t => t.dt = s.dt
  | .st, s, t => t.st = s.st
  | .mem, s, t => ∀ a, t.memRead a = s.memRead a
  | .core, s, t =>
    t.coreStatus = s.coreStatus ∧ t.faultCode = s.faultCode ∧ t.faultWord = s.faultWord ∧ t.faultPc = s.faultPc
  | .tclk, s, t => t.tclkState = s.tclkState ∧ t.tclkPaused = s.tclkPaused
  | .display, s, t => t.display = s.display
  | .keys, s, t => t.keys = s.keys
  | .draws, s, t => t.draws = s.draws
  | .schedule, s, t => t.slot = s.slot ∧ t.pending = s.pending

/-- Every part but the listed ones is the same. -/
def Frame (written : List Part) (s t : State) : Prop := ∀ p, p ∉ written → p.same s t

/-- Fault entry seen from outside (60_exceptions R232): the four status fields and PC are as given, the rest is as
before. -/
def HaltedAt (s t : State) (code : BitVec 4) (w : Word) (pc0 : Address) : Prop :=
  t.coreStatus = .halted ∧ t.faultCode = code ∧ t.faultWord = w ∧ t.faultPc = pc0 ∧ t.pc = pc0 ∧
    Frame [.core, .pc] s t

end Sys2Proof.Machine

namespace Sys2Proof

/-! ## Who writes and reads what (10_state R23 to R33, 20_memory R53, 60_exceptions R250) -/

/-- The parts an instruction may write. `core` stands for fault entry. -/
def Instr.writes : Instr → List Machine.Part
  | .cls => [.display]
  | .ret => [.pc, .sp, .core]
  | .jp _ => [.pc]
  | .call _ => [.pc, .sp, .stack, .core]
  | .seImm _ _ => [.pc]
  | .sneImm _ _ => [.pc]
  | .seReg _ _ => [.pc]
  | .ldImm _ _ => [.v]
  | .addImm _ _ => [.v]
  | .ldReg _ _ => [.v]
  | .orReg _ _ => [.v]
  | .andReg _ _ => [.v]
  | .xorReg _ _ => [.v]
  | .addReg _ _ => [.v]
  | .subReg _ _ => [.v]
  | .shr _ _ => [.v]
  | .subnReg _ _ => [.v]
  | .shl _ _ => [.v]
  | .sneReg _ _ => [.pc]
  | .ldI _ => [.i]
  | .jpV0 _ => [.pc]
  | .rnd _ _ => [.v, .draws]
  | .drw _ _ _ => [.v, .display]
  | .skp _ => [.pc]
  | .sknp _ => [.pc]
  | .ldVxDT _ => [.v]
  | .ldVxK _ => [.v, .pc]
  | .ldDTVx _ => [.dt]
  | .ldSTVx _ => [.st]
  | .addI _ => [.i]
  | .ldF _ => [.i]
  | .ldB _ => [.mem]
  | .storeRegs _ => [.mem, .i]
  | .loadRegs _ => [.v, .i]

/-- Does the instruction read register `r`? The "reads" column of 10_state R23. -/
def Instr.readsReg (r : Nibble) : Instr → Bool
  | .cls => false
  | .ret => false
  | .jp _ => false
  | .call _ => false
  | .seImm x _ => r == x
  | .sneImm x _ => r == x
  | .seReg x y => r == x || r == y
  | .ldImm _ _ => false
  | .addImm x _ => r == x
  | .ldReg _ y => r == y
  | .orReg x y => r == x || r == y
  | .andReg x y => r == x || r == y
  | .xorReg x y => r == x || r == y
  | .addReg x y => r == x || r == y
  | .subReg x y => r == x || r == y
  | .shr x _ => r == x
  | .subnReg x y => r == x || r == y
  | .shl x _ => r == x
  | .sneReg x y => r == x || r == y
  | .ldI _ => false
  | .jpV0 _ => r == 0x0#4
  | .rnd _ _ => false
  | .drw x y _ => r == x || r == y
  | .skp x => r == x
  | .sknp x => r == x
  | .ldVxDT _ => false
  | .ldVxK _ => false
  | .ldDTVx x => r == x
  | .ldSTVx x => r == x
  | .addI x => r == x
  | .ldF x => r == x
  | .ldB x => r == x
  | .storeRegs x => decide (r.toNat ≤ x.toNat)
  | .loadRegs _ => false

/-- Does the instruction write register `r`? The "writes" column of 10_state R23. -/
def Instr.writesReg (r : Nibble) : Instr → Bool
  | .cls => false
  | .ret => false
  | .jp _ => false
  | .call _ => false
  | .seImm _ _ => false
  | .sneImm _ _ => false
  | .seReg _ _ => false
  | .ldImm x _ => r == x
  | .addImm x _ => r == x
  | .ldReg x _ => r == x
  | .orReg x _ => r == x
  | .andReg x _ => r == x
  | .xorReg x _ => r == x
  | .addReg x _ => r == x || r == 0xF#4
  | .subReg x _ => r == x || r == 0xF#4
  | .shr x _ => r == x || r == 0xF#4
  | .subnReg x _ => r == x || r == 0xF#4
  | .shl x _ => r == x || r == 0xF#4
  | .sneReg _ _ => false
  | .ldI _ => false
  | .jpV0 _ => false
  | .rnd x _ => r == x
  | .drw _ _ _ => r == 0xF#4
  | .skp _ => false
  | .sknp _ => false
  | .ldVxDT x => r == x
  | .ldVxK x => r == x
  | .ldDTVx _ => false
  | .ldSTVx _ => false
  | .addI _ => false
  | .ldF _ => false
  | .ldB _ => false
  | .storeRegs _ => false
  | .loadRegs x => decide (r.toNat ≤ x.toNat)

end Sys2Proof

namespace Sys2Proof.Machine

/-! ## The invariant -/

/-- The fault record: zero while running (10_state R32); once halted, PC is the recorded address, the recorded word
is the word there, and the code is that of the word's fault (60_exceptions R230, R232). -/
abbrev State.RecordOk (s : State) : Prop :=
  (s.coreStatus = .running → s.faultCode = 0x0#4 ∧ s.faultWord = 0x0000#16 ∧ s.faultPc = 0x000#12) ∧
  (s.coreStatus = .halted →
    s.faultPc = s.pc ∧ s.faultWord = s.fetch s.pc ∧
      ((s.faultCode = 0x1#4 ∧ recognised s.faultWord = false) ∨
        (s.faultCode = 0x2#4 ∧ s.sp = 16#8 ∧ opField s.faultWord = 0x2#4) ∨
        (s.faultCode = 0x3#4 ∧ s.sp = 0#8 ∧ s.faultWord = 0x00EE#16)))

/-- What holds at reset and is kept by every step: memory is in canonical form (entry 24), SP counts at most 16
return addresses (10_state R28), and the fault record is that of a precise fault (60_exceptions R232). -/
abbrev State.Inv (s : State) : Prop := Memory.wf s.mem ∧ s.sp.toNat ≤ Config.stackDepth ∧ s.RecordOk

/-! ## The end of a run (70_reset R291) -/

/-- The instruction the next `execute_one` executes: none if the engine is halted or the word is unrecognised. -/
def State.nextInstr (s : State) : Option Instr :=
  match s.coreStatus with
  | .halted => none
  | .running => (decodeWord (s.fetch s.pc)).toOption

/-- The engine is at a word `1nnn` whose target is its own address (R291 (b)). -/
def State.atSelfJump (s : State) : Bool := s.nextInstr == some (.jp s.pc)

/-- A run has ended: a step has faulted, or a self-jump is reached (R291). This says nothing of the timers. -/
def State.ended (s : State) : Bool := s.coreStatus == .halted || s.atSelfJump

/-! ## Runs under a schedule -/

/-- `n` steps in which the other agents do `ev k` before step `k`. -/
def runWith (ev : Nat → List AgentEvent) : Nat → State → Host.Outcome State Fault Refusal
  | 0, s => .next s
  | n + 1, s =>
    match runWith ev n s with
    | .next t => t.stepWith (ev n)
    | .fault f => .fault f
    | .refused r => .refused r

/-- What lands before the `k`-th coming step of `s`: the pending list, then the free schedule (entry 5). -/
def State.arrival (s : State) (k : Nat) : List AgentEvent := (s.pending[k]?).getD (Config.schedule (s.slot + k))

/-- The timer clock's tick of a counter (60_exceptions R241). -/
def TimerId.tick : TimerId → AgentEvent
  | .DT => .tickDT
  | .ST => .tickST

/-- The one instruction that loads a counter (10_state R30). -/
def TimerId.loadInstr (x : Nibble) : TimerId → Instr
  | .DT => .ldDTVx x
  | .ST => .ldSTVx x

/-- The timer clock applies ticks: running and unpaused (60_exceptions R241). -/
abbrev State.ClockOn (s : State) : Prop := s.tclkState = .running ∧ s.tclkPaused = false

/-- The fairness assumption of 60_exceptions R247 for one counter in the run from `s`: from every point on, a tick of it
still comes, if the clock is running and unpaused from there on. R247 assumes it of both counters. -/
def FairTicks (T : TimerId) (ev : Nat → List AgentEvent) (s : State) : Prop :=
  ∀ k, (∀ m t, k ≤ m → runWith ev m s = .next t → t.ClockOn) → ∃ m, k ≤ m ∧ T.tick ∈ ev m

/-- The host leaves the timer clock alone: it is neither paused nor shut down. -/
def ClockLeftOn (ev : Nat → List AgentEvent) : Prop :=
  ∀ k, AgentEvent.tclkPause ∉ ev k ∧ AgentEvent.tclkShutdown ∉ ev k

end Sys2Proof.Machine
end

