-- ==== Sys2Proof/Certificates/Slice0/Obligations.lean ====
section
/-! DEFINITION. The statements for the provers. Each docstring names the rule of spec/ it formalises. -/

open Sys2Proof Sys2Proof.Machine

/-! ## Encoding and fetch -/

/-- Every instruction is well formed, and the decoder reads its two bytes back, whatever follows them (30_encoding R71
to R73, 20_memory R54). The bit patterns are the spec's general knowledge (entry 1). -/
def Obligations.DecodeReadsBackEveryEncoding : Prop :=
  ∀ (i : Instr) (rest : List Byte), i.wellFormed = true ∧ decode (encodeBytes i ++ rest) = .ok (i, rest)

/-- A word decodes to an instruction only if it is that instruction's word, so no two instructions share a word and no
bit of a word is dropped (30_encoding R73). -/
def Obligations.OnlyItsOwnWordDecodesToAnInstruction : Prop :=
  ∀ (w : Word) (i : Instr), decodeWord w = .ok i → encode i = w

/-- 30_encoding R74: the unrecognised words are exactly those of its table, on each of which the decoder raises
`UnrecognizedOpcode(w)`; the counts of its table and the two totals. Rests on the spec's decisions D14, D15. -/
def Obligations.UnrecognisedWordsAreExactlyTheTable : Prop :=
  (∀ w : Word, recognised w = true → ∃ i, decodeWord w = .ok i) ∧
  (∀ w : Word, recognised w = false → decodeWord w = .error (.unrecognizedOpcode w)) ∧
  (List.range 4096).countP (fun k => badOp0 (BitVec.ofNat 16 k)) = 4094 ∧
  (List.range 4096).countP (fun k => badOp5or9 (BitVec.ofNat 16 (0x5000 + k))) = 3840 ∧
  (List.range 4096).countP (fun k => badOp8 (BitVec.ofNat 16 (0x8000 + k))) = 1792 ∧
  (List.range 4096).countP (fun k => badOp5or9 (BitVec.ofNat 16 (0x9000 + k))) = 3840 ∧
  (List.range 4096).countP (fun k => badOpE (BitVec.ofNat 16 (0xE000 + k))) = 4064 ∧
  (List.range 4096).countP (fun k => badOpF (BitVec.ofNat 16 (0xF000 + k))) = 3952 ∧
  (List.range 65536).countP (fun k => !recognised (BitVec.ofNat 16 k)) = 21582 ∧
  (List.range 65536).countP (fun k => recognised (BitVec.ofNat 16 k)) = 43954

/-- Words written out from the patterns of 30_encoding R72, one of each family, and what they stand for; and words of
R74 that stand for nothing. -/
def Obligations.SampleWordsDecode : Prop :=
  decodeWord 0b0000000011100000#16 = .ok .cls ∧
  decodeWord 0b0001001000001000#16 = .ok (.jp 0x208#12) ∧
  decodeWord 0b0111001111111111#16 = .ok (.addImm 0x3#4 0xFF#8) ∧
  decodeWord 0b1000001000110110#16 = .ok (.shr 0x2#4 0x3#4) ∧
  decodeWord 0b1101000100100101#16 = .ok (.drw 0x1#4 0x2#4 0x5#4) ∧
  decodeWord 0b1110001010100001#16 = .ok (.sknp 0x2#4) ∧
  decodeWord 0b1111010100110011#16 = .ok (.ldB 0x5#4) ∧
  decodeWord 0b0101000100010001#16 = .error (.unrecognizedOpcode 0x5111#16) ∧
  decodeWord 0x0000#16 = .error (.unrecognizedOpcode 0x0000#16)

/-- 20_memory R54: the fetched word is the byte at `pc` high and the byte at `pc +_12 1` low, at every `pc`, odd ones and
0xFFF included, where the sum wraps to 0x000 (the spec's decision D5). -/
def Obligations.FetchIsBigEndianAtAnyAddress : Prop :=
  ∀ (s : State) (pc : Address),
    (s.fetch pc).toNat = 256 * (s.memRead pc).toNat + (s.memRead (pc + 1#12)).toNat ∧
    (s.fetch pc).extractLsb' 8 8 = s.memRead pc

/-- 20_memory R52 and R58: over a memory in canonical form, a byte written at any address, the font and the program
included, is the byte read there, and every other byte is as before; the form is kept, and nothing but memory changes.
The canonical form, premise and clause, is the model's choice (entry 24). -/
def Obligations.MemWriteChangesExactlyOneByte : Prop :=
  ∀ (s : State) (a : Address) (w : Byte), Memory.wf s.mem →
    (∀ b, (s.memWrite a w).memRead b = if b = a then w else s.memRead b) ∧
    Memory.wf (s.memWrite a w).mem ∧ Frame [.mem] s (s.memWrite a w)

/-! ## The step and its faults -/

/-- When the two bytes at PC decode to `i`, a step of a running engine is `exec i` on the state the other agents leave,
with PC advanced by 2 (30_encoding R70, 10_state R26). That the other agents' events land first is the model's reading
(entry 6). -/
def Obligations.StepRunsTheDecodedInstruction : Prop :=
  ∀ (s : State) (i : Instr), s.coreStatus = .running →
    decode [s.memRead s.pc, s.memRead (s.pc + 1#12)] = .ok (i, []) →
    step s = exec i (s.arrived.setPc (s.pc + 2#12)) ∧
      Frame [.dt, .st, .tclk, .keys, .schedule] s s.arrived

/-- A running engine at an unrecognised word halts with code 1, the word and its address recorded, PC and everything
else as before (60_exceptions R230, R234). -/
def Obligations.UnrecognisedWordHaltsTheEngine : Prop :=
  ∀ s : State, s.coreStatus = .running → recognised (s.fetch s.pc) = false →
    ∃ t, step s = .next t ∧ HaltedAt s.arrived t 0x1#4 (s.fetch s.pc) s.pc ∧
      t.result = .fault 0x1#4 (s.fetch s.pc) s.pc

/-- 60_exceptions R232: whichever fault an `execute_one` raises, the state after it is the state before the faulting
instruction plus the four status fields, with `FAULT_WORD` the fetched word, `FAULT_PC` and PC its address, and the code
that of the fault. -/
def Obligations.FaultEntryIsPrecise : Prop :=
  ∀ s t : State, s.coreStatus = .running → s.executeOne = .next t → t.coreStatus = .halted →
    HaltedAt s t t.faultCode (s.fetch s.pc) s.pc ∧
      ((t.faultCode = FaultCondition.unrecognizedOpcode.code ∧ recognised (s.fetch s.pc) = false) ∨
        (t.faultCode = FaultCondition.stackOverflow.code ∧ s.sp = 16#8 ∧
          ∃ nnn, decodeWord (s.fetch s.pc) = .ok (.call nnn)) ∨
        (t.faultCode = FaultCondition.stackUnderflow.code ∧ s.sp = 0#8 ∧
          decodeWord (s.fetch s.pc) = .ok .ret))

/-- 60_exceptions R233: a step of a halted engine leaves it halted with the same answer and changes nothing of the
engine, while ticks that land still count DT and ST down. -/
def Obligations.HaltedEngineStaysHaltedWhileTimersTick : Prop :=
  ∀ s : State, s.coreStatus = .halted →
    s.executeOne = .next s ∧ step s = .next s.arrived ∧ s.arrived.coreStatus = .halted ∧
      s.arrived.result = s.result ∧ Frame [.dt, .st, .tclk, .keys, .schedule] s s.arrived ∧
      (s.tclkState = .running → s.tclkPaused = false →
        ∃ t, s.stepWith [.tickDT, .tickST] = .next t ∧ t.coreStatus = .halted ∧
          t.dt.toNat = s.dt.toNat - 1 ∧ t.st.toNat = s.st.toNat - 1)

/-- Every instruction but CALL and RET completes from every state and raises no fault (60_exceptions R230, R238). -/
def Obligations.OnlyCallAndRetCanFault : Prop :=
  ∀ (i : Instr) (s : State), (∀ nnn, i ≠ .call nnn) → i ≠ .ret →
    ∃ t, exec i s = .next t ∧ Part.core.same s t

/-! ## ALU and register instructions (41_alu) -/

/-- 41_alu R102, R104: LD Vx, kk and LD Vx, Vy complete from every state; V[x] alone is written. -/
def Obligations.LoadImmediateAndCopyWriteVx : Prop :=
  ∀ (x y : Nibble) (kk : Byte) (s : State),
    (decodeWord (0x6#4 ++ x ++ kk) = .ok (.ldImm x kk) ∧
      ∃ t, exec (.ldImm x kk) s = .next t ∧
        (∀ r, t.getV r = if r = x then kk else s.getV r) ∧ Frame [.v] s t) ∧
    (decodeWord (0x8#4 ++ x ++ y ++ 0x0#4) = .ok (.ldReg x y) ∧
      ∃ t, exec (.ldReg x y) s = .next t ∧
        (∀ r, t.getV r = if r = x then s.getV y else s.getV r) ∧ Frame [.v] s t)

/-- 41_alu R103: ADD Vx, kk wraps modulo 256 and writes no flag (the spec's decision D9). -/
def Obligations.AddImmediateWrapsWithoutFlag : Prop :=
  ∀ (x : Nibble) (kk : Byte) (s : State),
    decodeWord (0x7#4 ++ x ++ kk) = .ok (.addImm x kk) ∧
    ∃ t, exec (.addImm x kk) s = .next t ∧
      (t.getV x).toNat = ((s.getV x).toNat + kk.toNat) % 256 ∧
      (∀ r, r ≠ x → t.getV r = s.getV r) ∧ Frame [.v] s t

/-- 41_alu R105, R106, R107: OR, AND and XOR, bit by bit; VF is not reset (the spec's decision D8). -/
def Obligations.LogicIsBitwiseWithoutFlag : Prop :=
  ∀ (x y : Nibble) (s : State),
    (decodeWord (0x8#4 ++ x ++ y ++ 0x1#4) = .ok (.orReg x y) ∧
      ∃ t, exec (.orReg x y) s = .next t ∧
        (∀ k, (t.getV x).getLsbD k = ((s.getV x).getLsbD k || (s.getV y).getLsbD k)) ∧
        (∀ r, r ≠ x → t.getV r = s.getV r) ∧ Frame [.v] s t) ∧
    (decodeWord (0x8#4 ++ x ++ y ++ 0x2#4) = .ok (.andReg x y) ∧
      ∃ t, exec (.andReg x y) s = .next t ∧
        (∀ k, (t.getV x).getLsbD k = ((s.getV x).getLsbD k && (s.getV y).getLsbD k)) ∧
        (∀ r, r ≠ x → t.getV r = s.getV r) ∧ Frame [.v] s t) ∧
    (decodeWord (0x8#4 ++ x ++ y ++ 0x3#4) = .ok (.xorReg x y) ∧
      ∃ t, exec (.xorReg x y) s = .next t ∧
        (∀ k, (t.getV x).getLsbD k = ((s.getV x).getLsbD k ^^ (s.getV y).getLsbD k)) ∧
        (∀ r, r ≠ x → t.getV r = s.getV r) ∧ Frame [.v] s t)

/-- 41_alu R108: ADD Vx, Vy: V[x] is the sum modulo 256, VF the carry, and VF holds the carry when x is 15 (the
spec's decision D6). -/
def Obligations.AddRegisterSetsCarry : Prop :=
  ∀ (x y : Nibble) (s : State),
    decodeWord (0x8#4 ++ x ++ y ++ 0x4#4) = .ok (.addReg x y) ∧
    ∃ t, exec (.addReg x y) s = .next t ∧
      (t.getV 0xF#4).toNat = (if 255 < (s.getV x).toNat + (s.getV y).toNat then 1 else 0) ∧
      (x ≠ 0xF#4 → (t.getV x).toNat = ((s.getV x).toNat + (s.getV y).toNat) % 256) ∧
      (∀ r, r ≠ x → r ≠ 0xF#4 → t.getV r = s.getV r) ∧ Frame [.v] s t

/-- 41_alu R109: SUB Vx, Vy: V[x] is the difference modulo 256, VF the not-borrow, 1 for equal operands (the spec's
decision D25); VF holds it when x is 15 (D6). -/
def Obligations.SubRegisterSetsNotBorrow : Prop :=
  ∀ (x y : Nibble) (s : State),
    decodeWord (0x8#4 ++ x ++ y ++ 0x5#4) = .ok (.subReg x y) ∧
    ∃ t, exec (.subReg x y) s = .next t ∧
      (t.getV 0xF#4).toNat = (if (s.getV y).toNat ≤ (s.getV x).toNat then 1 else 0) ∧
      (x ≠ 0xF#4 → (t.getV x).toNat = (256 + (s.getV x).toNat - (s.getV y).toNat) % 256) ∧
      (∀ r, r ≠ x → r ≠ 0xF#4 → t.getV r = s.getV r) ∧ Frame [.v] s t

/-- 41_alu R110: SHR Vx halves V[x] in place, VF is its old bit 0, and the `y` field changes nothing (the spec's
decisions D6, D7). -/
def Obligations.ShiftRightSetsOldBitZero : Prop :=
  ∀ (x y : Nibble) (s : State),
    decodeWord (0x8#4 ++ x ++ y ++ 0x6#4) = .ok (.shr x y) ∧
    (∀ z, exec (.shr x y) s = exec (.shr x z) s) ∧
    ∃ t, exec (.shr x y) s = .next t ∧
      (t.getV 0xF#4).toNat = (s.getV x).toNat % 2 ∧
      (x ≠ 0xF#4 → (t.getV x).toNat = (s.getV x).toNat / 2) ∧
      (∀ r, r ≠ x → r ≠ 0xF#4 → t.getV r = s.getV r) ∧ Frame [.v] s t

/-- 41_alu R111: SUBN Vx, Vy: V[x] is V[y] minus V[x] modulo 256, VF the not-borrow (the spec's decisions D6, D25). -/
def Obligations.SubnRegisterSetsNotBorrow : Prop :=
  ∀ (x y : Nibble) (s : State),
    decodeWord (0x8#4 ++ x ++ y ++ 0x7#4) = .ok (.subnReg x y) ∧
    ∃ t, exec (.subnReg x y) s = .next t ∧
      (t.getV 0xF#4).toNat = (if (s.getV x).toNat ≤ (s.getV y).toNat then 1 else 0) ∧
      (x ≠ 0xF#4 → (t.getV x).toNat = (256 + (s.getV y).toNat - (s.getV x).toNat) % 256) ∧
      (∀ r, r ≠ x → r ≠ 0xF#4 → t.getV r = s.getV r) ∧ Frame [.v] s t

/-- 41_alu R112: SHL Vx doubles V[x] modulo 256 in place, VF is its old bit 7, and the `y` field changes nothing (the
spec's decisions D6, D7). -/
def Obligations.ShiftLeftSetsOldBitSeven : Prop :=
  ∀ (x y : Nibble) (s : State),
    decodeWord (0x8#4 ++ x ++ y ++ 0xE#4) = .ok (.shl x y) ∧
    (∀ z, exec (.shl x y) s = exec (.shl x z) s) ∧
    ∃ t, exec (.shl x y) s = .next t ∧
      (t.getV 0xF#4).toNat = (s.getV x).toNat / 128 ∧
      (x ≠ 0xF#4 → (t.getV x).toNat = 2 * (s.getV x).toNat % 256) ∧
      (∀ r, r ≠ x → r ≠ 0xF#4 → t.getV r = s.getV r) ∧ Frame [.v] s t

/-- 41_alu R113: RND Vx, kk: V[x] is one fresh draw masked by kk, so every bit outside kk is 0, whatever is drawn. The
draw is a free value and the count of draws that selects it is the model's own (entry 4); nothing here rests on the
value drawn. -/
def Obligations.RandomByteIsOneMaskedDraw : Prop :=
  ∀ (x : Nibble) (kk : Byte) (s : State),
    decodeWord (0xC#4 ++ x ++ kk) = .ok (.rnd x kk) ∧
    ∃ t, exec (.rnd x kk) s = .next t ∧
      (∀ r, t.getV r = if r = x then Config.rngByte s.draws &&& kk else s.getV r) ∧
      (∀ k, kk.getLsbD k = false → (t.getV x).getLsbD k = false) ∧
      t.draws = s.draws + 1 ∧ Frame [.v, .draws] s t

/-! ## Control transfer (42_control_flow) -/

/-- 42_control_flow R142: JP nnn. -/
def Obligations.JumpWritesPc : Prop :=
  ∀ (nnn : Address) (s : State),
    decodeWord (0x1#4 ++ nnn) = .ok (.jp nnn) ∧
    ∃ t, exec (.jp nnn) s = .next t ∧ t.pc = nnn ∧ Frame [.pc] s t

/-- 42_control_flow R143: CALL nnn pushes the next sequential address and jumps; with 16 return addresses on the stack
it raises StackOverflow and halts, all else as before the step (the spec's decisions D3, D34). PC holds `pc0 +_12 2`. -/
def Obligations.CallPushesOrOverflows : Prop :=
  ∀ (nnn : Address) (s : State),
    decodeWord (0x2#4 ++ nnn) = .ok (.call nnn) ∧
    (s.sp.toNat < 16 →
      ∃ t, exec (.call nnn) s = .next t ∧ t.pc = nnn ∧ t.sp.toNat = s.sp.toNat + 1 ∧
        t.readSlot s.sp = some s.pc ∧ (∀ k, k ≠ s.sp → t.readSlot k = s.readSlot k) ∧
        Frame [.pc, .sp, .stack] s t) ∧
    (s.sp = 16#8 →
      ∃ t, exec (.call nnn) s = .next t ∧ HaltedAt s t 0x2#4 (0x2#4 ++ nnn) (s.pc - 2#12))

/-- 42_control_flow R144: RET pops the return address into PC, the slot keeping its value; on an empty stack it raises
StackUnderflow and halts (the spec's decisions D3, D34). -/
def Obligations.RetPopsOrUnderflows : Prop :=
  ∀ s : State,
    decodeWord 0x00EE#16 = .ok .ret ∧
    (0 < s.sp.toNat → s.sp.toNat ≤ 16 →
      ∃ t, exec .ret s = .next t ∧ t.sp.toNat = s.sp.toNat - 1 ∧ s.readSlot t.sp = some t.pc ∧
        Frame [.pc, .sp] s t) ∧
    (s.sp = 0#8 → ∃ t, exec .ret s = .next t ∧ HaltedAt s t 0x3#4 0x00EE#16 (s.pc - 2#12))

/-- The model's choice (entry 12): where SP is above 16, which 10_state R28 says never happens, CALL stops by name, and
RET stops by name where the slot it would pop does not exist. -/
def Obligations.NoSlotAboveSixteenStops : Prop :=
  ∀ (nnn : Address) (s : State), 16 < s.sp.toNat →
    exec (.call nnn) s = .fault .noSuchStackSlot ∧ exec .ret s = .fault .noSuchStackSlot

/-- A RET after a CALL comes back to the address after the CALL with the stack pointer as before, whatever PC is by
then, and only the slot the CALL pushed to may differ (42_control_flow R143, R144). -/
def Obligations.RetComesBackFromCall : Prop :=
  ∀ (nnn a : Address) (s : State), s.sp.toNat < 16 →
    ∃ t u, exec (.call nnn) s = .next t ∧ exec .ret (t.setPc a) = .next u ∧ u.pc = s.pc ∧ u.sp = s.sp ∧
      (∀ k, k ≠ s.sp → u.readSlot k = s.readSlot k) ∧ Frame [.stack] s u

/-- 42_control_flow R145, R146, R147, R148: the compare-and-skip forms add 2 to PC once more, modulo 4096, exactly when
the compare holds, and change nothing else; a low nibble other than 0 in the register forms is no instruction. -/
def Obligations.CompareSkipsAddTwoToPc : Prop :=
  ∀ (x y n : Nibble) (kk : Byte) (s : State),
    (n ≠ 0x0#4 →
      decodeWord (0x5#4 ++ x ++ y ++ n) = .error (.unrecognizedOpcode (0x5#4 ++ x ++ y ++ n)) ∧
      decodeWord (0x9#4 ++ x ++ y ++ n) = .error (.unrecognizedOpcode (0x9#4 ++ x ++ y ++ n))) ∧
    (decodeWord (0x3#4 ++ x ++ kk) = .ok (.seImm x kk) ∧
      ∃ t, exec (.seImm x kk) s = .next t ∧
        t.pc.toNat = (if s.getV x = kk then (s.pc.toNat + 2) % 4096 else s.pc.toNat) ∧ Frame [.pc] s t) ∧
    (decodeWord (0x4#4 ++ x ++ kk) = .ok (.sneImm x kk) ∧
      ∃ t, exec (.sneImm x kk) s = .next t ∧
        t.pc.toNat = (if s.getV x ≠ kk then (s.pc.toNat + 2) % 4096 else s.pc.toNat) ∧ Frame [.pc] s t) ∧
    (decodeWord (0x5#4 ++ x ++ y ++ 0x0#4) = .ok (.seReg x y) ∧
      ∃ t, exec (.seReg x y) s = .next t ∧
        t.pc.toNat = (if s.getV x = s.getV y then (s.pc.toNat + 2) % 4096 else s.pc.toNat) ∧ Frame [.pc] s t) ∧
    (decodeWord (0x9#4 ++ x ++ y ++ 0x0#4) = .ok (.sneReg x y) ∧
      ∃ t, exec (.sneReg x y) s = .next t ∧
        t.pc.toNat = (if s.getV x ≠ s.getV y then (s.pc.toNat + 2) % 4096 else s.pc.toNat) ∧ Frame [.pc] s t)

/-- 42_control_flow R149: JP V0, nnn jumps to nnn plus V0 modulo 4096, whatever nnn's top nibble names. -/
def Obligations.OffsetJumpAddsV0 : Prop :=
  ∀ (nnn : Address) (s : State),
    decodeWord (0xB#4 ++ nnn) = .ok (.jpV0 nnn) ∧
    ∃ t, exec (.jpV0 nnn) s = .next t ∧ t.pc.toNat = (nnn.toNat + (s.getV 0x0#4).toNat) % 4096 ∧ Frame [.pc] s t

/-! ## Index register and memory (43_index_memory) -/

/-- 43_index_memory R170, R171, R172: LD I, nnn; ADD I, Vx modulo 4096 with VF not written (the spec's decision D10);
LD F, Vx is 5 times V[x], not masked (D24). -/
def Obligations.IndexRegisterInstructionsWriteI : Prop :=
  ∀ (nnn : Address) (x : Nibble) (s : State),
    (decodeWord (0xA#4 ++ nnn) = .ok (.ldI nnn) ∧
      ∃ t, exec (.ldI nnn) s = .next t ∧ t.i = nnn ∧ Frame [.i] s t) ∧
    (decodeWord (0xF#4 ++ x ++ 0x1E#8) = .ok (.addI x) ∧
      ∃ t, exec (.addI x) s = .next t ∧ t.i.toNat = (s.i.toNat + (s.getV x).toNat) % 4096 ∧ Frame [.i] s t) ∧
    (decodeWord (0xF#4 ++ x ++ 0x29#8) = .ok (.ldF x) ∧
      ∃ t, exec (.ldF x) s = .next t ∧ t.i.toNat = 5 * (s.getV x).toNat ∧ Frame [.i] s t)

/-- 43_index_memory R173: LD B, Vx writes the three decimal digits of V[x] at I, I + 1 and I + 2 modulo 4096, and
nothing else; I is not changed (the spec's decision D11). -/
def Obligations.BcdStoresThreeDigits : Prop :=
  ∀ (x : Nibble) (s : State), Memory.wf s.mem →
    decodeWord (0xF#4 ++ x ++ 0x33#8) = .ok (.ldB x) ∧
    ∃ t, exec (.ldB x) s = .next t ∧
      (t.memRead s.i).toNat = (s.getV x).toNat / 100 ∧
      (t.memRead (s.i + 1#12)).toNat = (s.getV x).toNat / 10 % 10 ∧
      (t.memRead (s.i + 2#12)).toNat = (s.getV x).toNat % 10 ∧
      (∀ a, a ≠ s.i → a ≠ s.i + 1#12 → a ≠ s.i + 2#12 → t.memRead a = s.memRead a) ∧ Frame [.mem] s t

/-- 43_index_memory R174: LD [I], Vx stores V0..Vx from I on and nothing else, then I advances by x + 1, all modulo
4096 (the spec's decision D32). -/
def Obligations.StoreRangeWritesVZeroToVx : Prop :=
  ∀ (x : Nibble) (s : State), Memory.wf s.mem →
    decodeWord (0xF#4 ++ x ++ 0x55#8) = .ok (.storeRegs x) ∧
    ∃ t, exec (.storeRegs x) s = .next t ∧
      t.i.toNat = (s.i.toNat + x.toNat + 1) % 4096 ∧
      (∀ r : Nibble, r.toNat ≤ x.toNat → t.memRead (s.i + BitVec.ofNat 12 r.toNat) = s.getV r) ∧
      (∀ a, (∀ r : Nibble, r.toNat ≤ x.toNat → a ≠ s.i + BitVec.ofNat 12 r.toNat) → t.memRead a = s.memRead a) ∧
      Frame [.mem, .i] s t

/-- 43_index_memory R175, its pseudocode: LD Vx, [I] loads V0..Vx from I on, then I advances by x + 1, all modulo 4096
(the spec's decision D32). -/
def Obligations.LoadRangeReadsVZeroToVx : Prop :=
  ∀ (x : Nibble) (s : State),
    decodeWord (0xF#4 ++ x ++ 0x65#8) = .ok (.loadRegs x) ∧
    ∃ t, exec (.loadRegs x) s = .next t ∧
      t.i.toNat = (s.i.toNat + x.toNat + 1) % 4096 ∧
      (∀ r : Nibble, t.getV r =
        if r.toNat ≤ x.toNat then s.memRead (s.i + BitVec.ofNat 12 r.toNat) else s.getV r) ∧
      Frame [.v, .i] s t

/-- A range stored and then loaded at the same I with the same x gives the registers back, even if they were
overwritten between, and I advances by x + 1 (43_index_memory R175). -/
def Obligations.StoreThenLoadRangeRoundTrips : Prop :=
  ∀ (x : Nibble) (junk : Vector Byte 16) (s : State), Memory.wf s.mem →
    ∃ t u, exec (.storeRegs x) s = .next t ∧
      exec (.loadRegs x) (({ t with v := junk } : State).setI s.i) = .next u ∧
      u.i = t.i ∧ ∀ r : Nibble, r.toNat ≤ x.toNat → u.getV r = s.getV r

/-- 20_memory R65: a word that LD [I], Vx stores, its high byte from V[r] and its low byte from the next register, is
what a fetch at its address gives from the next step on. -/
def Obligations.StoredBytesAreFetched : Prop :=
  ∀ (x r : Nibble) (s t : State), Memory.wf s.mem → r.toNat < x.toNat → exec (.storeRegs x) s = .next t →
    (t.fetch (s.i + BitVec.ofNat 12 r.toNat)).toNat = 256 * (s.getV r).toNat + (s.getV (r + 1#4)).toNat

/-! ## Timers, display and keyboard (44_timer_insns, 45_display, 46_keyboard) -/

/-- LD Vx, DT; LD DT, Vx; LD ST, Vx: one timer transaction each, on the counter as it stands when the instruction
executes (44_timer_insns R190, R191, R192). -/
def Obligations.TimerInstructionsMoveTheCounters : Prop :=
  ∀ (x : Nibble) (s : State),
    (decodeWord (0xF#4 ++ x ++ 0x07#8) = .ok (.ldVxDT x) ∧
      ∃ t, exec (.ldVxDT x) s = .next t ∧ (∀ r, t.getV r = if r = x then s.dt else s.getV r) ∧ Frame [.v] s t) ∧
    (decodeWord (0xF#4 ++ x ++ 0x15#8) = .ok (.ldDTVx x) ∧
      ∃ t, exec (.ldDTVx x) s = .next t ∧ t.dt = s.getV x ∧ Frame [.dt] s t) ∧
    (decodeWord (0xF#4 ++ x ++ 0x18#8) = .ok (.ldSTVx x) ∧
      ∃ t, exec (.ldSTVx x) s = .next t ∧ t.st = s.getV x ∧ Frame [.st] s t)

/-- 45_display R200: CLS unlights every pixel and changes nothing else. -/
def Obligations.ClearUnlightsEveryPixel : Prop :=
  ∀ s : State,
    decodeWord 0x00E0#16 = .ok .cls ∧
    ∃ t, exec .cls s = .next t ∧ (∀ p, Grid.lit t.display p = false) ∧ Frame [.display] s t

/-- 45_display R201, R202, and R203's first sentence: DRW Vx, Vy, n. The bit of row r and column c (bit 7 leftmost)
inverts the pixel at ((V[x] + c) mod 64, (V[y] + r) mod 32), no two bits the same one; every other pixel keeps; VF is 1
exactly when a lit pixel became unlit. Rests on the spec's decisions D16, D17. That no two bits meet is the inference
R202 marks as its own: "no two sprite bits of one draw map to the same pixel [derived: from this rule]". -/
def Obligations.DrawXorsTheSpriteAndReportsCollision : Prop :=
  ∀ (x y n : Nibble) (s : State),
    decodeWord (0xD#4 ++ x ++ y ++ n) = .ok (.drw x y n) ∧
    (∀ r c r' c' : Nat, r < n.toNat → c < 8 → r' < n.toNat → c' < 8 →
      ((s.getV x).toNat + c) % 64 = ((s.getV x).toNat + c') % 64 →
      ((s.getV y).toNat + r) % 32 = ((s.getV y).toNat + r') % 32 → r = r' ∧ c = c') ∧
    ∃ t, exec (.drw x y n) s = .next t ∧
      (∀ (p : Pixel) (r c : Nat), r < n.toNat → c < 8 →
        p.1.val = ((s.getV x).toNat + c) % 64 → p.2.val = ((s.getV y).toNat + r) % 32 →
        Grid.lit t.display p =
          (Grid.lit s.display p ^^ (s.memRead (s.i + BitVec.ofNat 12 r)).getLsbD (7 - c))) ∧
      (∀ p : Pixel,
        (∀ r c : Nat, r < n.toNat → c < 8 →
          ¬(p.1.val = ((s.getV x).toNat + c) % 64 ∧ p.2.val = ((s.getV y).toNat + r) % 32)) →
        Grid.lit t.display p = Grid.lit s.display p) ∧
      ((∃ p, Grid.lit s.display p = true ∧ Grid.lit t.display p = false) → t.getV 0xF#4 = 1#8) ∧
      ((∀ p, Grid.lit s.display p = true → Grid.lit t.display p = true) → t.getV 0xF#4 = 0#8) ∧
      (∀ r, r ≠ 0xF#4 → t.getV r = s.getV r) ∧ Frame [.v, .display] s t

/-- Drawing the same sprite at the same place again restores the grid, and the second draw reports a collision exactly
when the first turned some pixel on (45_display R203 read as 90_conflicts C4 says, entry 27). The second draw starts with
the coordinates in place, so x and y are not 15. -/
def Obligations.DrawingTwiceRestoresTheGrid : Prop :=
  ∀ (x y n : Nibble) (s : State), x ≠ 0xF#4 → y ≠ 0xF#4 →
    ∃ t u, exec (.drw x y n) s = .next t ∧ exec (.drw x y n) t = .next u ∧ u.display = s.display ∧
      (u.getV 0xF#4 = 1#8 ↔ ∃ p, Grid.lit s.display p = false ∧ Grid.lit t.display p = true)

/-- 46_keyboard R215, R216: SKP and SKNP skip on the key named by the low nibble of V[x] (the spec's decision D12) and
change nothing but PC. -/
def Obligations.KeySkipsReadTheNamedKey : Prop :=
  ∀ (x k : Nibble) (s : State), k.toNat = (s.getV x).toNat % 16 →
    (decodeWord (0xE#4 ++ x ++ 0x9E#8) = .ok (.skp x) ∧
      ∃ t, exec (.skp x) s = .next t ∧
        t.pc.toNat = (if s.keyPressed k = true then (s.pc.toNat + 2) % 4096 else s.pc.toNat) ∧ Frame [.pc] s t) ∧
    (decodeWord (0xE#4 ++ x ++ 0xA1#8) = .ok (.sknp x) ∧
      ∃ t, exec (.sknp x) s = .next t ∧
        t.pc.toNat = (if s.keyPressed k = true then s.pc.toNat else (s.pc.toNat + 2) % 4096) ∧ Frame [.pc] s t)

/-- 46_keyboard R217, its pseudocode: LD Vx, K with no key pressed takes PC back by 2 and changes nothing else; with
keys pressed, V[x] is the lowest one (the spec's decision D13). -/
def Obligations.WaitKeyTakesTheLowestKeyOrRewinds : Prop :=
  ∀ (x : Nibble) (s : State),
    decodeWord (0xF#4 ++ x ++ 0x0A#8) = .ok (.ldVxK x) ∧
    ((∀ k, s.keyPressed k = false) →
      ∃ t, exec (.ldVxK x) s = .next t ∧ t.pc = s.pc - 2#12 ∧ Frame [.pc] s t) ∧
    (∀ k : Nibble, s.keyPressed k = true → (∀ j : Nibble, j.toNat < k.toNat → s.keyPressed j = false) →
      ∃ t, exec (.ldVxK x) s = .next t ∧ (t.getV x).toNat = k.toNat ∧
        (∀ r, r ≠ x → t.getV r = s.getV r) ∧ Frame [.v] s t)

/-- A whole step of LD Vx, K with no key pressed leaves PC where it was, at 0x000 too, and changes nothing but what the
other agents did: the same instruction is fetched again (46_keyboard R217, 60_exceptions R262). -/
def Obligations.WaitKeyStepRepeatsWhileNoKey : Prop :=
  ∀ (x : Nibble) (s : State), s.coreStatus = .running → decodeWord (s.fetch s.pc) = .ok (.ldVxK x) →
    (∀ k, s.arrived.keyPressed k = false) → step s = .next s.arrived

/-! ## The timer clock and the host (60_exceptions) -/

/-- A tick takes 1 from its counter, never below 0, while the clock is running and not paused, and changes nothing
else; otherwise it changes nothing (60_exceptions R241). -/
def Obligations.TickTakesOneNeverBelowZero : Prop :=
  ∀ s : State,
    (s.tclkState = .running → s.tclkPaused = false →
      (s.land [.tickDT]).dt.toNat = s.dt.toNat - 1 ∧ Frame [.dt] s (s.land [.tickDT]) ∧
      (s.land [.tickST]).st.toNat = s.st.toNat - 1 ∧ Frame [.st] s (s.land [.tickST])) ∧
    (¬(s.tclkState = .running ∧ s.tclkPaused = false) → s.land [.tickDT] = s ∧ s.land [.tickST] = s)

/-- n ticks of a running clock take n from DT and stop at 0, leaving ST alone (60_exceptions R241, 44_timer_insns R191's
example, 95_test_vectors S6). -/
def Obligations.TicksCountDownAndStopAtZero : Prop :=
  ∀ (n : Nat) (s : State), s.tclkState = .running → s.tclkPaused = false →
    (s.land (List.replicate n .tickDT)).dt.toNat = s.dt.toNat - n ∧
      Frame [.dt] s (s.land (List.replicate n .tickDT))

/-- 60_exceptions R243, R244: ticks that fall due while the clock is paused are not applied and not made up; from the
resume on they are applied again (the spec's decision D40). -/
def Obligations.PausedTicksAreDropped : Prop :=
  ∀ (ticks : List AgentEvent) (s : State), (∀ e ∈ ticks, e = .tickDT ∨ e = .tickST) →
    s.land (.tclkPause :: ticks ++ [.tclkResume]) = s.land [.tclkResume] ∧
    (s.land (.tclkPause :: ticks)).tclkPaused = true ∧
    (s.land [.tclkPause]).tclkState = s.tclkState ∧ (s.land [.tclkResume]).tclkPaused = false ∧
    (s.tclkState = .running →
      (s.land (.tclkPause :: ticks ++ [.tclkResume, .tickDT])).dt.toNat = s.dt.toNat - 1 ∧
      (s.land (.tclkPause :: ticks ++ [.tclkResume, .tickST])).st.toNat = s.st.toNat - 1)

/-- 60_exceptions R245: a shutdown stops the clock from every state, is idempotent, and no tick is applied after it,
whatever else happens; the counters keep their values and can still be loaded and read (the spec's decision D31). -/
def Obligations.ShutdownStopsTheClockForGood : Prop :=
  ∀ (evs : List AgentEvent) (s : State),
    (s.land [.tclkShutdown]).tclkState = .stopped ∧ (s.land [.tclkShutdown]).tclkPaused = s.tclkPaused ∧
    Frame [.tclk] s (s.land [.tclkShutdown]) ∧
    s.land [.tclkShutdown, .tclkShutdown] = s.land [.tclkShutdown] ∧
    (s.land (.tclkShutdown :: evs)).dt = s.dt ∧ (s.land (.tclkShutdown :: evs)).st = s.st ∧
    (s.tclkState = .stopped → ∀ (T : TimerId) (b : Byte),
      ((s.timerLoad T b).land evs).timerGet T = b ∧ ((s.timerLoad T b).land evs).tclkState = .stopped)

/-- 60_exceptions R246: the clock's state goes only Created to Running on start, and Created or Running to Stopped on
shutdown; Stopped is final; it is Running after reset; no instruction changes it (the spec's decision D20). The clause
that a start from another state than Created does nothing is the model's reading, DEDUCED (entry 20). -/
def Obligations.ClockStateMovesForwardOnly : Prop :=
  ∀ s t : State,
    (step s = .next t → t.tclkState = s.tclkState ∨ t.tclkState = .stopped) ∧
    (step s = .next t → s.tclkState = .stopped → t.tclkState = .stopped) ∧
    (∀ i, exec i s = .next t → t.tclkState = s.tclkState ∧ t.tclkPaused = s.tclkPaused) ∧
    (s.tclkState = .created → s.tclkStart.tclkState = .running) ∧
    (s.tclkState ≠ .created → s.tclkStart = s) ∧ s.tclkStart.tclkPaused = s.tclkPaused ∧
    Frame [.tclk] s s.tclkStart ∧
    State.reset.tclkState = .running

/-- DT never rises in a step but by LD DT, Vx, whatever the other agents do (70_reset R287). -/
def Obligations.DelayTimerRisesOnlyByItsLoad : Prop :=
  ∀ s t : State, step s = .next t → (∀ x, s.nextInstr ≠ some (.ldDTVx x)) → t.dt.toNat ≤ s.dt.toNat

/-- 60_exceptions R248, its first sentence: the tone is asserted exactly while ST is not 0 (the spec's decision D22). -/
def Obligations.ToneFollowsSoundTimer : Prop :=
  ∀ s : State, (s.tone = true ↔ s.st.toNat ≠ 0) ∧
    (s.tclkState = .running → s.tclkPaused = false → s.st = 1#8 → (s.land [.tickST]).tone = false)

/-- 60_exceptions R256: set_pressed replaces all 16 flags at once and changes nothing else, and no instruction changes
a flag, so the keys are constant within an instruction (the spec's decision D30). -/
def Obligations.SetPressedReplacesAllKeys : Prop :=
  ∀ (ks : Vector Bool 16) (s : State),
    (s.land [.setPressed ks]).keys = ks ∧ Frame [.keys] s (s.land [.setPressed ks]) ∧
    ∀ i t, exec i s = .next t → t.keys = s.keys

/-- 60_exceptions R257: first_pressed is none when no flag is set, else the lowest set index (the spec's decision D13). -/
def Obligations.FirstPressedIsTheLowest : Prop :=
  ∀ s : State,
    (s.firstPressed = none ↔ ∀ k, s.keyPressed k = false) ∧
    (∀ k : Nibble, s.firstPressed = some k ↔
      s.keyPressed k = true ∧ ∀ j : Nibble, j.toNat < k.toNat → s.keyPressed j = false)

/-- Under the fairness of 60_exceptions R247 for a counter, DT or ST, with the host leaving the clock on and the counter's
load (LD DT, Vx or LD ST, Vx) not executed, the counter reaches 0, whatever else the other agents and the program do
(70_reset R287). -/
def Obligations.FairClockBringsDelayTimerToZero : Prop :=
  ∀ (T : TimerId) (ev : Nat → List AgentEvent) (s : State), s.Inv → FairTicks T ev s → ClockLeftOn ev → s.ClockOn →
    (∀ n t, runWith ev n s = .next t → ∀ x, t.nextInstr ≠ some (T.loadInstr x)) →
    ∃ n t, runWith ev n s = .next t ∧ t.timerGet T = 0#8

/-- A run of the machine's own step is the run under the events its state and the free schedule give (entry 5). -/
def Obligations.RunIsTheScheduledRun : Prop :=
  ∀ (n : Nat) (s : State), Sys2Proof.core.run n s = runWith s.arrival n s

/-! ## Reset and load -/

/-- 70_reset R280, with 10_state R20 and 20_memory R56: every piece of state at its reset value. All but PC, the font
and the program image is the spec's decision D2 (entry 2); the font bytes are the table of R57, glyph `d` at `5 * d`
(entry 3). -/
def Obligations.ResetValues : Prop :=
  (∀ x, State.reset.getV x = 0#8) ∧ State.reset.i = 0#12 ∧ State.reset.pc = 0x200#12 ∧ State.reset.sp = 0#8 ∧
  (∀ k : Byte, k.toNat < 16 → State.reset.readSlot k = some 0#12) ∧
  State.reset.dt = 0#8 ∧ State.reset.st = 0#8 ∧ State.reset.coreStatus = .running ∧
  State.reset.faultCode = 0#4 ∧ State.reset.faultWord = 0#16 ∧ State.reset.faultPc = 0#12 ∧
  State.reset.tclkState = .running ∧ State.reset.tclkPaused = false ∧
  (∀ a : Address, 80 ≤ a.toNat → State.reset.memRead a = 0#8) ∧
  (∀ (d k : Nat) (glyph : List Byte) (b : Byte),
    ([[0xF0, 0x90, 0x90, 0x90, 0xF0], [0x20, 0x60, 0x20, 0x20, 0x70], [0xF0, 0x10, 0xF0, 0x80, 0xF0],
      [0xF0, 0x10, 0xF0, 0x10, 0xF0]] ++
     [[0x90, 0x90, 0xF0, 0x10, 0x10], [0xF0, 0x80, 0xF0, 0x10, 0xF0], [0xF0, 0x80, 0xF0, 0x90, 0xF0],
      [0xF0, 0x10, 0x20, 0x40, 0x40]] ++
     [[0xF0, 0x90, 0xF0, 0x90, 0xF0], [0xF0, 0x90, 0xF0, 0x10, 0xF0], [0xF0, 0x90, 0xF0, 0x90, 0x90],
      [0xE0, 0x90, 0xE0, 0x90, 0xE0]] ++
     [[0xF0, 0x80, 0x80, 0x80, 0xF0], [0xE0, 0x90, 0x90, 0x90, 0xE0], [0xF0, 0x80, 0xF0, 0x80, 0xF0],
      [0xF0, 0x80, 0xF0, 0x80, 0x80]] : List (List Byte))[d]? = some glyph →
    glyph[k]? = some b → State.reset.memRead (BitVec.ofNat 12 (5 * d + k)) = b) ∧
  (∀ p, Grid.lit State.reset.display p = false) ∧ (∀ k, State.reset.keyPressed k = false)

/-- 20_memory R59: a program of at most 3584 bytes lands verbatim at 0x200 and nothing else changes; a longer one
writes nothing and fails with ProgramTooLarge. Construction, load and the start of the clock leave the reset state with
the program loaded (70_reset R283), and that state meets the invariant (its memory clause is entry 24). That load is
called once, before the first step, is the host's duty (entry 11). -/
def Obligations.LoadAndBootPlaceTheProgramOrFail : Prop :=
  ∀ (bytes : List Byte) (s : State), Memory.wf s.mem →
    (bytes.length ≤ 3584 →
      ∃ t, s.load bytes = .next t ∧
        (∀ (k : Nat) (b : Byte), bytes[k]? = some b → t.memRead (BitVec.ofNat 12 (0x200 + k)) = b) ∧
        (∀ a : Address, a.toNat < 0x200 ∨ 0x200 + bytes.length ≤ a.toNat → t.memRead a = s.memRead a) ∧
        Memory.wf t.mem ∧ Frame [.mem] s t) ∧
    (3584 < bytes.length → s.load bytes = .fault .programTooLarge) ∧
    State.constructed.tclkState = .created ∧ State.constructed.tclkStart = State.reset ∧
    boot bytes = State.reset.load bytes ∧ (bytes.length ≤ 3584 → ∃ t, boot bytes = .next t ∧ t.Inv)

/-! ## Invariants and rules of the whole machine -/

/-- The invariant holds at reset. Its memory clause is the model's canonical form (entry 24). -/
def Obligations.ResetMeetsTheInvariant : Prop := State.reset.Inv

/-- Every step keeps the invariant: memory in canonical form (entry 24), SP at most 16 (10_state R28), and the fault
record that of a precise fault at PC (60_exceptions R232). -/
def Obligations.StepKeepsTheInvariant : Prop :=
  ∀ s t : State, s.Inv → step s = .next t → t.Inv

/-- From every state of the invariant the machine steps: no fault and no refusal of the model is reached (10_state R28,
60_exceptions R231). Whatever the agents do, the next state meets the invariant too. -/
def Obligations.InvariantStatesAlwaysStep : Prop :=
  ∀ (evs : List AgentEvent) (s : State), s.Inv → ∃ t, s.stepWith evs = .next t ∧ t.Inv

/-- No instruction writes a part of the state that the spec's lists of writers do not give it (10_state R23, R25, R26,
R28, R29, R30, R32, R33, 20_memory R53, 60_exceptions R250). -/
def Obligations.InstructionsWriteOnlyTheirParts : Prop :=
  ∀ (i : Instr) (s t : State), exec i s = .next t → Frame i.writes s t

/-- 10_state R23: a register outside an instruction's "writes" column keeps its value; and changing a register outside
its "reads" column changes nothing the instruction does but that register itself, and not that if it is written. -/
def Obligations.RegisterReadersAndWriters : Prop :=
  ∀ (i : Instr) (r : Nibble) (b : Byte) (s t : State), exec i s = .next t →
    (i.writesReg r = false → t.getV r = s.getV r) ∧
    (i.readsReg r = false →
      ∃ u, exec i (s.setV r b) = .next u ∧ Frame [.v] t u ∧ (∀ q, q ≠ r → u.getV q = t.getV q) ∧
        (u.getV r = t.getV r ∨ (u.getV r = b ∧ t.getV r = s.getV r)))

/-- No instruction reads ST: with any other value in ST an instruction does the same to everything else, and leaves that
value unless it is LD ST, Vx (10_state R30). -/
def Obligations.NoInstructionReadsSoundTimer : Prop :=
  ∀ (i : Instr) (b : Byte) (s t : State), exec i s = .next t →
    ∃ u, exec i (s.timerLoad .ST b) = .next u ∧ Frame [.st] t u ∧
      (u.st = t.st ∨ (u.st = b ∧ t.st = s.st))

/-- From a jump to itself a step changes nothing but what the other agents did, and is at the same jump again
(42_control_flow R142, 70_reset R291 (b)). -/
def Obligations.SelfJumpChangesNothingOfTheEngine : Prop :=
  ∀ s : State, s.atSelfJump = true → step s = .next s.arrived ∧ s.arrived.atSelfJump = true ∧
    Frame [.dt, .st, .tclk, .keys, .schedule] s s.arrived
end

