-- ==== Sys2Proof/Laws/Encoding.lean ====
section
/-! SUPPORT. The fields of an encoded word, and a word from its fields (30_encoding R71). -/

namespace Sys2Proof

/-! ## Extracting from an appended vector -/

theorem extract_append_high {n m : Nat} (a : BitVec n) (b : BitVec m) (s l : Nat) :
    (a ++ b).extractLsb' (m + s) l = a.extractLsb' s l := by
  apply BitVec.eq_of_getElem_eq
  intro i h
  simp only [BitVec.getElem_extractLsb', BitVec.getLsbD_append]
  rw [if_neg (by omega)]
  congr 1
  omega

theorem extract_append_low {n m : Nat} (a : BitVec n) (b : BitVec m) (s l : Nat) (hsl : s + l ≤ m) :
    (a ++ b).extractLsb' s l = b.extractLsb' s l := by
  apply BitVec.eq_of_getElem_eq
  intro i h
  simp only [BitVec.getElem_extractLsb', BitVec.getLsbD_append]
  rw [if_pos (by omega)]

/-! ## Fields of the formats -/

section
variable (o x y n : Nibble) (kk : Byte) (nnn : Address)

@[simp] theorem opField_nnn : opField (o ++ nnn) = o :=
  (extract_append_high o nnn 0 4).trans (BitVec.extractLsb'_eq_self)

@[simp] theorem nnnField_nnn : nnnField (o ++ nnn) = nnn :=
  (extract_append_low o nnn 0 12 (by decide)).trans (BitVec.extractLsb'_eq_self)

@[simp] theorem opField_xkk : opField (o ++ x ++ kk) = o :=
  (extract_append_high (o ++ x) kk 4 4).trans
    ((extract_append_high o x 0 4).trans (BitVec.extractLsb'_eq_self))

@[simp] theorem xField_xkk : xField (o ++ x ++ kk) = x :=
  (extract_append_high (o ++ x) kk 0 4).trans
    ((extract_append_low o x 0 4 (by decide)).trans (BitVec.extractLsb'_eq_self))

@[simp] theorem kkField_xkk : kkField (o ++ x ++ kk) = kk :=
  (extract_append_low (o ++ x) kk 0 8 (by decide)).trans (BitVec.extractLsb'_eq_self)

@[simp] theorem opField_xyn : opField (o ++ x ++ y ++ n) = o :=
  (extract_append_high (o ++ x ++ y) n 8 4).trans
    ((extract_append_high (o ++ x) y 4 4).trans
      ((extract_append_high o x 0 4).trans (BitVec.extractLsb'_eq_self)))

@[simp] theorem xField_xyn : xField (o ++ x ++ y ++ n) = x :=
  (extract_append_high (o ++ x ++ y) n 4 4).trans
    ((extract_append_high (o ++ x) y 0 4).trans
      ((extract_append_low o x 0 4 (by decide)).trans (BitVec.extractLsb'_eq_self)))

@[simp] theorem yField_xyn : yField (o ++ x ++ y ++ n) = y :=
  (extract_append_high (o ++ x ++ y) n 0 4).trans
    ((extract_append_low (o ++ x) y 0 4 (by decide)).trans (BitVec.extractLsb'_eq_self))

@[simp] theorem nField_xyn : nField (o ++ x ++ y ++ n) = n :=
  (extract_append_low (o ++ x ++ y) n 0 4 (by decide)).trans (BitVec.extractLsb'_eq_self)

@[simp] theorem highByte_wordOfBytes (hi lo : Byte) : highByte (wordOfBytes hi lo) = hi :=
  (extract_append_high hi lo 0 8).trans (BitVec.extractLsb'_eq_self)

@[simp] theorem lowByte_wordOfBytes (hi lo : Byte) : lowByte (wordOfBytes hi lo) = lo :=
  (extract_append_low hi lo 0 8 (by decide)).trans (BitVec.extractLsb'_eq_self)

end

/-! ## A word from its fields -/

theorem append_extract {n m : Nat} (w : BitVec (n + m)) :
    w.extractLsb' m n ++ w.extractLsb' 0 m = w := by
  apply BitVec.eq_of_getLsbD_eq
  intro i h
  simp only [BitVec.getLsbD_append, BitVec.getLsbD_extractLsb']
  split
  · simp [*]
  · rw [show m + (i - m) = i by omega]; simp; omega

theorem word_nnn (w : Word) : opField w ++ nnnField w = w := append_extract (n := 4) (m := 12) w

@[simp] theorem wordOfBytes_high_low (w : Word) : wordOfBytes (highByte w) (lowByte w) = w :=
  append_extract (n := 8) (m := 8) w

/-- Two neighbouring nibbles make the byte they are the halves of. -/
theorem nibbles_extract (w : Word) (k : Nat) :
    w.extractLsb' (k + 4) 4 ++ w.extractLsb' k 4 = w.extractLsb' k 8 := by
  apply BitVec.eq_of_getLsbD_eq
  intro i h
  rw [BitVec.getLsbD_append]
  simp only [BitVec.getLsbD_extractLsb']
  by_cases hi : i < 4
  · simp [hi, Nat.lt_trans hi]
  · rw [if_neg hi, show k + 4 + (i - 4) = k + i by omega, decide_eq_true (show i - 4 < 4 by omega),
      decide_eq_true (show i < 8 by omega)]

theorem highByte_fields (w : Word) : opField w ++ xField w = highByte w := nibbles_extract w 8

theorem lowByte_fields (w : Word) : yField w ++ nField w = kkField w := nibbles_extract w 0

theorem word_xkk (w : Word) : opField w ++ xField w ++ kkField w = w := by
  rw [highByte_fields]
  exact wordOfBytes_high_low w

theorem word_xyn (w : Word) : opField w ++ xField w ++ yField w ++ nField w = w := by
  refine Eq.trans ?_ (word_xkk w)
  rw [← lowByte_fields]
  exact BitVec.append_assoc

/-- A word of value below 4096 in its top nibble: its fields as numbers. -/
theorem opField_toNat (w : Word) : (opField w).toNat = w.toNat / 4096 := by
  have := w.isLt
  simp [opField, BitVec.extractLsb'_toNat, Nat.shiftRight_eq_div_pow]
  omega

theorem nField_toNat (w : Word) : (nField w).toNat = w.toNat % 16 := by
  simp [nField, BitVec.extractLsb'_toNat]

theorem kkField_toNat (w : Word) : (kkField w).toNat = w.toNat % 256 := by
  simp [kkField, BitVec.extractLsb'_toNat]

end Sys2Proof
end

