-- ==== Sys2Proof/Laws/State.lean ====
section
/-! SUPPORT. One lemma per field per update of the state, the accessors' lemmas over each update, and the derived
updates written over the basic ones. -/

namespace Sys2Proof.Machine

variable (s : State)

/-! ## memWrite -/

@[simp] theorem memWrite_v (a : Address) (w : Byte) : (s.memWrite a w).v = s.v := rfl
@[simp] theorem memWrite_i (a : Address) (w : Byte) : (s.memWrite a w).i = s.i := rfl
@[simp] theorem memWrite_pc (a : Address) (w : Byte) : (s.memWrite a w).pc = s.pc := rfl
@[simp] theorem memWrite_sp (a : Address) (w : Byte) : (s.memWrite a w).sp = s.sp := rfl
@[simp] theorem memWrite_stack (a : Address) (w : Byte) : (s.memWrite a w).stack = s.stack := rfl
@[simp] theorem memWrite_dt (a : Address) (w : Byte) : (s.memWrite a w).dt = s.dt := rfl
@[simp] theorem memWrite_st (a : Address) (w : Byte) : (s.memWrite a w).st = s.st := rfl
@[simp] theorem memWrite_mem (a : Address) (w : Byte) : (s.memWrite a w).mem = Memory.write s.mem a.toNat w := rfl
@[simp] theorem memWrite_coreStatus (a : Address) (w : Byte) : (s.memWrite a w).coreStatus = s.coreStatus := rfl
@[simp] theorem memWrite_faultCode (a : Address) (w : Byte) : (s.memWrite a w).faultCode = s.faultCode := rfl
@[simp] theorem memWrite_faultWord (a : Address) (w : Byte) : (s.memWrite a w).faultWord = s.faultWord := rfl
@[simp] theorem memWrite_faultPc (a : Address) (w : Byte) : (s.memWrite a w).faultPc = s.faultPc := rfl
@[simp] theorem memWrite_tclkState (a : Address) (w : Byte) : (s.memWrite a w).tclkState = s.tclkState := rfl
@[simp] theorem memWrite_tclkPaused (a : Address) (w : Byte) : (s.memWrite a w).tclkPaused = s.tclkPaused := rfl
@[simp] theorem memWrite_display (a : Address) (w : Byte) : (s.memWrite a w).display = s.display := rfl
@[simp] theorem memWrite_keys (a : Address) (w : Byte) : (s.memWrite a w).keys = s.keys := rfl
@[simp] theorem memWrite_draws (a : Address) (w : Byte) : (s.memWrite a w).draws = s.draws := rfl
@[simp] theorem memWrite_slot (a : Address) (w : Byte) : (s.memWrite a w).slot = s.slot := rfl
@[simp] theorem memWrite_pending (a : Address) (w : Byte) : (s.memWrite a w).pending = s.pending := rfl
@[simp] theorem memWrite_getV (a : Address) (w : Byte) (r : Nibble) : (s.memWrite a w).getV r = s.getV r := rfl

/-! ## setV -/

@[simp] theorem setV_v (x : Nibble) (b : Byte) : (s.setV x b).v = s.v.set x.toNat b x.isLt := rfl
@[simp] theorem setV_i (x : Nibble) (b : Byte) : (s.setV x b).i = s.i := rfl
@[simp] theorem setV_pc (x : Nibble) (b : Byte) : (s.setV x b).pc = s.pc := rfl
@[simp] theorem setV_sp (x : Nibble) (b : Byte) : (s.setV x b).sp = s.sp := rfl
@[simp] theorem setV_stack (x : Nibble) (b : Byte) : (s.setV x b).stack = s.stack := rfl
@[simp] theorem setV_dt (x : Nibble) (b : Byte) : (s.setV x b).dt = s.dt := rfl
@[simp] theorem setV_st (x : Nibble) (b : Byte) : (s.setV x b).st = s.st := rfl
@[simp] theorem setV_mem (x : Nibble) (b : Byte) : (s.setV x b).mem = s.mem := rfl
@[simp] theorem setV_coreStatus (x : Nibble) (b : Byte) : (s.setV x b).coreStatus = s.coreStatus := rfl
@[simp] theorem setV_faultCode (x : Nibble) (b : Byte) : (s.setV x b).faultCode = s.faultCode := rfl
@[simp] theorem setV_faultWord (x : Nibble) (b : Byte) : (s.setV x b).faultWord = s.faultWord := rfl
@[simp] theorem setV_faultPc (x : Nibble) (b : Byte) : (s.setV x b).faultPc = s.faultPc := rfl
@[simp] theorem setV_tclkState (x : Nibble) (b : Byte) : (s.setV x b).tclkState = s.tclkState := rfl
@[simp] theorem setV_tclkPaused (x : Nibble) (b : Byte) : (s.setV x b).tclkPaused = s.tclkPaused := rfl
@[simp] theorem setV_display (x : Nibble) (b : Byte) : (s.setV x b).display = s.display := rfl
@[simp] theorem setV_keys (x : Nibble) (b : Byte) : (s.setV x b).keys = s.keys := rfl
@[simp] theorem setV_draws (x : Nibble) (b : Byte) : (s.setV x b).draws = s.draws := rfl
@[simp] theorem setV_slot (x : Nibble) (b : Byte) : (s.setV x b).slot = s.slot := rfl
@[simp] theorem setV_pending (x : Nibble) (b : Byte) : (s.setV x b).pending = s.pending := rfl
@[simp] theorem setV_memRead (x : Nibble) (b : Byte) (r : Address) : (s.setV x b).memRead r = s.memRead r := rfl
@[simp] theorem setV_fetch (x : Nibble) (b : Byte) (r : Address) : (s.setV x b).fetch r = s.fetch r := rfl

/-! ## setI -/

@[simp] theorem setI_v (a : Address) : (s.setI a).v = s.v := rfl
@[simp] theorem setI_i (a : Address) : (s.setI a).i = a := rfl
@[simp] theorem setI_pc (a : Address) : (s.setI a).pc = s.pc := rfl
@[simp] theorem setI_sp (a : Address) : (s.setI a).sp = s.sp := rfl
@[simp] theorem setI_stack (a : Address) : (s.setI a).stack = s.stack := rfl
@[simp] theorem setI_dt (a : Address) : (s.setI a).dt = s.dt := rfl
@[simp] theorem setI_st (a : Address) : (s.setI a).st = s.st := rfl
@[simp] theorem setI_mem (a : Address) : (s.setI a).mem = s.mem := rfl
@[simp] theorem setI_coreStatus (a : Address) : (s.setI a).coreStatus = s.coreStatus := rfl
@[simp] theorem setI_faultCode (a : Address) : (s.setI a).faultCode = s.faultCode := rfl
@[simp] theorem setI_faultWord (a : Address) : (s.setI a).faultWord = s.faultWord := rfl
@[simp] theorem setI_faultPc (a : Address) : (s.setI a).faultPc = s.faultPc := rfl
@[simp] theorem setI_tclkState (a : Address) : (s.setI a).tclkState = s.tclkState := rfl
@[simp] theorem setI_tclkPaused (a : Address) : (s.setI a).tclkPaused = s.tclkPaused := rfl
@[simp] theorem setI_display (a : Address) : (s.setI a).display = s.display := rfl
@[simp] theorem setI_keys (a : Address) : (s.setI a).keys = s.keys := rfl
@[simp] theorem setI_draws (a : Address) : (s.setI a).draws = s.draws := rfl
@[simp] theorem setI_slot (a : Address) : (s.setI a).slot = s.slot := rfl
@[simp] theorem setI_pending (a : Address) : (s.setI a).pending = s.pending := rfl
@[simp] theorem setI_getV (a : Address) (r : Nibble) : (s.setI a).getV r = s.getV r := rfl
@[simp] theorem setI_memRead (a : Address) (r : Address) : (s.setI a).memRead r = s.memRead r := rfl
@[simp] theorem setI_fetch (a : Address) (r : Address) : (s.setI a).fetch r = s.fetch r := rfl

/-! ## setPc -/

@[simp] theorem setPc_v (a : Address) : (s.setPc a).v = s.v := rfl
@[simp] theorem setPc_i (a : Address) : (s.setPc a).i = s.i := rfl
@[simp] theorem setPc_pc (a : Address) : (s.setPc a).pc = a := rfl
@[simp] theorem setPc_sp (a : Address) : (s.setPc a).sp = s.sp := rfl
@[simp] theorem setPc_stack (a : Address) : (s.setPc a).stack = s.stack := rfl
@[simp] theorem setPc_dt (a : Address) : (s.setPc a).dt = s.dt := rfl
@[simp] theorem setPc_st (a : Address) : (s.setPc a).st = s.st := rfl
@[simp] theorem setPc_mem (a : Address) : (s.setPc a).mem = s.mem := rfl
@[simp] theorem setPc_coreStatus (a : Address) : (s.setPc a).coreStatus = s.coreStatus := rfl
@[simp] theorem setPc_faultCode (a : Address) : (s.setPc a).faultCode = s.faultCode := rfl
@[simp] theorem setPc_faultWord (a : Address) : (s.setPc a).faultWord = s.faultWord := rfl
@[simp] theorem setPc_faultPc (a : Address) : (s.setPc a).faultPc = s.faultPc := rfl
@[simp] theorem setPc_tclkState (a : Address) : (s.setPc a).tclkState = s.tclkState := rfl
@[simp] theorem setPc_tclkPaused (a : Address) : (s.setPc a).tclkPaused = s.tclkPaused := rfl
@[simp] theorem setPc_display (a : Address) : (s.setPc a).display = s.display := rfl
@[simp] theorem setPc_keys (a : Address) : (s.setPc a).keys = s.keys := rfl
@[simp] theorem setPc_draws (a : Address) : (s.setPc a).draws = s.draws := rfl
@[simp] theorem setPc_slot (a : Address) : (s.setPc a).slot = s.slot := rfl
@[simp] theorem setPc_pending (a : Address) : (s.setPc a).pending = s.pending := rfl
@[simp] theorem setPc_getV (a : Address) (r : Nibble) : (s.setPc a).getV r = s.getV r := rfl
@[simp] theorem setPc_memRead (a : Address) (r : Address) : (s.setPc a).memRead r = s.memRead r := rfl
@[simp] theorem setPc_fetch (a : Address) (r : Address) : (s.setPc a).fetch r = s.fetch r := rfl

/-! ## setSp -/

@[simp] theorem setSp_v (b : Byte) : (s.setSp b).v = s.v := rfl
@[simp] theorem setSp_i (b : Byte) : (s.setSp b).i = s.i := rfl
@[simp] theorem setSp_pc (b : Byte) : (s.setSp b).pc = s.pc := rfl
@[simp] theorem setSp_sp (b : Byte) : (s.setSp b).sp = b := rfl
@[simp] theorem setSp_stack (b : Byte) : (s.setSp b).stack = s.stack := rfl
@[simp] theorem setSp_dt (b : Byte) : (s.setSp b).dt = s.dt := rfl
@[simp] theorem setSp_st (b : Byte) : (s.setSp b).st = s.st := rfl
@[simp] theorem setSp_mem (b : Byte) : (s.setSp b).mem = s.mem := rfl
@[simp] theorem setSp_coreStatus (b : Byte) : (s.setSp b).coreStatus = s.coreStatus := rfl
@[simp] theorem setSp_faultCode (b : Byte) : (s.setSp b).faultCode = s.faultCode := rfl
@[simp] theorem setSp_faultWord (b : Byte) : (s.setSp b).faultWord = s.faultWord := rfl
@[simp] theorem setSp_faultPc (b : Byte) : (s.setSp b).faultPc = s.faultPc := rfl
@[simp] theorem setSp_tclkState (b : Byte) : (s.setSp b).tclkState = s.tclkState := rfl
@[simp] theorem setSp_tclkPaused (b : Byte) : (s.setSp b).tclkPaused = s.tclkPaused := rfl
@[simp] theorem setSp_display (b : Byte) : (s.setSp b).display = s.display := rfl
@[simp] theorem setSp_keys (b : Byte) : (s.setSp b).keys = s.keys := rfl
@[simp] theorem setSp_draws (b : Byte) : (s.setSp b).draws = s.draws := rfl
@[simp] theorem setSp_slot (b : Byte) : (s.setSp b).slot = s.slot := rfl
@[simp] theorem setSp_pending (b : Byte) : (s.setSp b).pending = s.pending := rfl
@[simp] theorem setSp_getV (b : Byte) (r : Nibble) : (s.setSp b).getV r = s.getV r := rfl
@[simp] theorem setSp_memRead (b : Byte) (r : Address) : (s.setSp b).memRead r = s.memRead r := rfl
@[simp] theorem setSp_fetch (b : Byte) (r : Address) : (s.setSp b).fetch r = s.fetch r := rfl

/-! ## writeSlot -/

@[simp] theorem writeSlot_v (k : Byte) (a : Address) : (s.writeSlot k a).v = s.v := rfl
@[simp] theorem writeSlot_i (k : Byte) (a : Address) : (s.writeSlot k a).i = s.i := rfl
@[simp] theorem writeSlot_pc (k : Byte) (a : Address) : (s.writeSlot k a).pc = s.pc := rfl
@[simp] theorem writeSlot_sp (k : Byte) (a : Address) : (s.writeSlot k a).sp = s.sp := rfl
@[simp] theorem writeSlot_stack (k : Byte) (a : Address) : (s.writeSlot k a).stack = s.stack.setIfInBounds k.toNat a := rfl
@[simp] theorem writeSlot_dt (k : Byte) (a : Address) : (s.writeSlot k a).dt = s.dt := rfl
@[simp] theorem writeSlot_st (k : Byte) (a : Address) : (s.writeSlot k a).st = s.st := rfl
@[simp] theorem writeSlot_mem (k : Byte) (a : Address) : (s.writeSlot k a).mem = s.mem := rfl
@[simp] theorem writeSlot_coreStatus (k : Byte) (a : Address) : (s.writeSlot k a).coreStatus = s.coreStatus := rfl
@[simp] theorem writeSlot_faultCode (k : Byte) (a : Address) : (s.writeSlot k a).faultCode = s.faultCode := rfl
@[simp] theorem writeSlot_faultWord (k : Byte) (a : Address) : (s.writeSlot k a).faultWord = s.faultWord := rfl
@[simp] theorem writeSlot_faultPc (k : Byte) (a : Address) : (s.writeSlot k a).faultPc = s.faultPc := rfl
@[simp] theorem writeSlot_tclkState (k : Byte) (a : Address) : (s.writeSlot k a).tclkState = s.tclkState := rfl
@[simp] theorem writeSlot_tclkPaused (k : Byte) (a : Address) : (s.writeSlot k a).tclkPaused = s.tclkPaused := rfl
@[simp] theorem writeSlot_display (k : Byte) (a : Address) : (s.writeSlot k a).display = s.display := rfl
@[simp] theorem writeSlot_keys (k : Byte) (a : Address) : (s.writeSlot k a).keys = s.keys := rfl
@[simp] theorem writeSlot_draws (k : Byte) (a : Address) : (s.writeSlot k a).draws = s.draws := rfl
@[simp] theorem writeSlot_slot (k : Byte) (a : Address) : (s.writeSlot k a).slot = s.slot := rfl
@[simp] theorem writeSlot_pending (k : Byte) (a : Address) : (s.writeSlot k a).pending = s.pending := rfl
@[simp] theorem writeSlot_getV (k : Byte) (a : Address) (r : Nibble) : (s.writeSlot k a).getV r = s.getV r := rfl
@[simp] theorem writeSlot_memRead (k : Byte) (a : Address) (r : Address) : (s.writeSlot k a).memRead r = s.memRead r := rfl
@[simp] theorem writeSlot_fetch (k : Byte) (a : Address) (r : Address) : (s.writeSlot k a).fetch r = s.fetch r := rfl

/-! ## loadDT -/

@[simp] theorem loadDT_v (b : Byte) : (s.timerLoad .DT b).v = s.v := rfl
@[simp] theorem loadDT_i (b : Byte) : (s.timerLoad .DT b).i = s.i := rfl
@[simp] theorem loadDT_pc (b : Byte) : (s.timerLoad .DT b).pc = s.pc := rfl
@[simp] theorem loadDT_sp (b : Byte) : (s.timerLoad .DT b).sp = s.sp := rfl
@[simp] theorem loadDT_stack (b : Byte) : (s.timerLoad .DT b).stack = s.stack := rfl
@[simp] theorem loadDT_dt (b : Byte) : (s.timerLoad .DT b).dt = b := rfl
@[simp] theorem loadDT_st (b : Byte) : (s.timerLoad .DT b).st = s.st := rfl
@[simp] theorem loadDT_mem (b : Byte) : (s.timerLoad .DT b).mem = s.mem := rfl
@[simp] theorem loadDT_coreStatus (b : Byte) : (s.timerLoad .DT b).coreStatus = s.coreStatus := rfl
@[simp] theorem loadDT_faultCode (b : Byte) : (s.timerLoad .DT b).faultCode = s.faultCode := rfl
@[simp] theorem loadDT_faultWord (b : Byte) : (s.timerLoad .DT b).faultWord = s.faultWord := rfl
@[simp] theorem loadDT_faultPc (b : Byte) : (s.timerLoad .DT b).faultPc = s.faultPc := rfl
@[simp] theorem loadDT_tclkState (b : Byte) : (s.timerLoad .DT b).tclkState = s.tclkState := rfl
@[simp] theorem loadDT_tclkPaused (b : Byte) : (s.timerLoad .DT b).tclkPaused = s.tclkPaused := rfl
@[simp] theorem loadDT_display (b : Byte) : (s.timerLoad .DT b).display = s.display := rfl
@[simp] theorem loadDT_keys (b : Byte) : (s.timerLoad .DT b).keys = s.keys := rfl
@[simp] theorem loadDT_draws (b : Byte) : (s.timerLoad .DT b).draws = s.draws := rfl
@[simp] theorem loadDT_slot (b : Byte) : (s.timerLoad .DT b).slot = s.slot := rfl
@[simp] theorem loadDT_pending (b : Byte) : (s.timerLoad .DT b).pending = s.pending := rfl
@[simp] theorem loadDT_getV (b : Byte) (r : Nibble) : (s.timerLoad .DT b).getV r = s.getV r := rfl
@[simp] theorem loadDT_memRead (b : Byte) (r : Address) : (s.timerLoad .DT b).memRead r = s.memRead r := rfl
@[simp] theorem loadDT_fetch (b : Byte) (r : Address) : (s.timerLoad .DT b).fetch r = s.fetch r := rfl

/-! ## loadST -/

@[simp] theorem loadST_v (b : Byte) : (s.timerLoad .ST b).v = s.v := rfl
@[simp] theorem loadST_i (b : Byte) : (s.timerLoad .ST b).i = s.i := rfl
@[simp] theorem loadST_pc (b : Byte) : (s.timerLoad .ST b).pc = s.pc := rfl
@[simp] theorem loadST_sp (b : Byte) : (s.timerLoad .ST b).sp = s.sp := rfl
@[simp] theorem loadST_stack (b : Byte) : (s.timerLoad .ST b).stack = s.stack := rfl
@[simp] theorem loadST_dt (b : Byte) : (s.timerLoad .ST b).dt = s.dt := rfl
@[simp] theorem loadST_st (b : Byte) : (s.timerLoad .ST b).st = b := rfl
@[simp] theorem loadST_mem (b : Byte) : (s.timerLoad .ST b).mem = s.mem := rfl
@[simp] theorem loadST_coreStatus (b : Byte) : (s.timerLoad .ST b).coreStatus = s.coreStatus := rfl
@[simp] theorem loadST_faultCode (b : Byte) : (s.timerLoad .ST b).faultCode = s.faultCode := rfl
@[simp] theorem loadST_faultWord (b : Byte) : (s.timerLoad .ST b).faultWord = s.faultWord := rfl
@[simp] theorem loadST_faultPc (b : Byte) : (s.timerLoad .ST b).faultPc = s.faultPc := rfl
@[simp] theorem loadST_tclkState (b : Byte) : (s.timerLoad .ST b).tclkState = s.tclkState := rfl
@[simp] theorem loadST_tclkPaused (b : Byte) : (s.timerLoad .ST b).tclkPaused = s.tclkPaused := rfl
@[simp] theorem loadST_display (b : Byte) : (s.timerLoad .ST b).display = s.display := rfl
@[simp] theorem loadST_keys (b : Byte) : (s.timerLoad .ST b).keys = s.keys := rfl
@[simp] theorem loadST_draws (b : Byte) : (s.timerLoad .ST b).draws = s.draws := rfl
@[simp] theorem loadST_slot (b : Byte) : (s.timerLoad .ST b).slot = s.slot := rfl
@[simp] theorem loadST_pending (b : Byte) : (s.timerLoad .ST b).pending = s.pending := rfl
@[simp] theorem loadST_getV (b : Byte) (r : Nibble) : (s.timerLoad .ST b).getV r = s.getV r := rfl
@[simp] theorem loadST_memRead (b : Byte) (r : Address) : (s.timerLoad .ST b).memRead r = s.memRead r := rfl
@[simp] theorem loadST_fetch (b : Byte) (r : Address) : (s.timerLoad .ST b).fetch r = s.fetch r := rfl

/-! ## rngDrawn -/

@[simp] theorem rngDrawn_v : (s.rngDrawn).v = s.v := rfl
@[simp] theorem rngDrawn_i : (s.rngDrawn).i = s.i := rfl
@[simp] theorem rngDrawn_pc : (s.rngDrawn).pc = s.pc := rfl
@[simp] theorem rngDrawn_sp : (s.rngDrawn).sp = s.sp := rfl
@[simp] theorem rngDrawn_stack : (s.rngDrawn).stack = s.stack := rfl
@[simp] theorem rngDrawn_dt : (s.rngDrawn).dt = s.dt := rfl
@[simp] theorem rngDrawn_st : (s.rngDrawn).st = s.st := rfl
@[simp] theorem rngDrawn_mem : (s.rngDrawn).mem = s.mem := rfl
@[simp] theorem rngDrawn_coreStatus : (s.rngDrawn).coreStatus = s.coreStatus := rfl
@[simp] theorem rngDrawn_faultCode : (s.rngDrawn).faultCode = s.faultCode := rfl
@[simp] theorem rngDrawn_faultWord : (s.rngDrawn).faultWord = s.faultWord := rfl
@[simp] theorem rngDrawn_faultPc : (s.rngDrawn).faultPc = s.faultPc := rfl
@[simp] theorem rngDrawn_tclkState : (s.rngDrawn).tclkState = s.tclkState := rfl
@[simp] theorem rngDrawn_tclkPaused : (s.rngDrawn).tclkPaused = s.tclkPaused := rfl
@[simp] theorem rngDrawn_display : (s.rngDrawn).display = s.display := rfl
@[simp] theorem rngDrawn_keys : (s.rngDrawn).keys = s.keys := rfl
@[simp] theorem rngDrawn_draws : (s.rngDrawn).draws = s.draws + 1 := rfl
@[simp] theorem rngDrawn_slot : (s.rngDrawn).slot = s.slot := rfl
@[simp] theorem rngDrawn_pending : (s.rngDrawn).pending = s.pending := rfl
@[simp] theorem rngDrawn_getV (r : Nibble) : (s.rngDrawn).getV r = s.getV r := rfl
@[simp] theorem rngDrawn_memRead (r : Address) : (s.rngDrawn).memRead r = s.memRead r := rfl
@[simp] theorem rngDrawn_fetch (r : Address) : (s.rngDrawn).fetch r = s.fetch r := rfl

/-! ## setDisplay -/

@[simp] theorem setDisplay_v (g : Grid) : (s.setDisplay g).v = s.v := rfl
@[simp] theorem setDisplay_i (g : Grid) : (s.setDisplay g).i = s.i := rfl
@[simp] theorem setDisplay_pc (g : Grid) : (s.setDisplay g).pc = s.pc := rfl
@[simp] theorem setDisplay_sp (g : Grid) : (s.setDisplay g).sp = s.sp := rfl
@[simp] theorem setDisplay_stack (g : Grid) : (s.setDisplay g).stack = s.stack := rfl
@[simp] theorem setDisplay_dt (g : Grid) : (s.setDisplay g).dt = s.dt := rfl
@[simp] theorem setDisplay_st (g : Grid) : (s.setDisplay g).st = s.st := rfl
@[simp] theorem setDisplay_mem (g : Grid) : (s.setDisplay g).mem = s.mem := rfl
@[simp] theorem setDisplay_coreStatus (g : Grid) : (s.setDisplay g).coreStatus = s.coreStatus := rfl
@[simp] theorem setDisplay_faultCode (g : Grid) : (s.setDisplay g).faultCode = s.faultCode := rfl
@[simp] theorem setDisplay_faultWord (g : Grid) : (s.setDisplay g).faultWord = s.faultWord := rfl
@[simp] theorem setDisplay_faultPc (g : Grid) : (s.setDisplay g).faultPc = s.faultPc := rfl
@[simp] theorem setDisplay_tclkState (g : Grid) : (s.setDisplay g).tclkState = s.tclkState := rfl
@[simp] theorem setDisplay_tclkPaused (g : Grid) : (s.setDisplay g).tclkPaused = s.tclkPaused := rfl
@[simp] theorem setDisplay_display (g : Grid) : (s.setDisplay g).display = g := rfl
@[simp] theorem setDisplay_keys (g : Grid) : (s.setDisplay g).keys = s.keys := rfl
@[simp] theorem setDisplay_draws (g : Grid) : (s.setDisplay g).draws = s.draws := rfl
@[simp] theorem setDisplay_slot (g : Grid) : (s.setDisplay g).slot = s.slot := rfl
@[simp] theorem setDisplay_pending (g : Grid) : (s.setDisplay g).pending = s.pending := rfl
@[simp] theorem setDisplay_getV (g : Grid) (r : Nibble) : (s.setDisplay g).getV r = s.getV r := rfl
@[simp] theorem setDisplay_memRead (g : Grid) (r : Address) : (s.setDisplay g).memRead r = s.memRead r := rfl
@[simp] theorem setDisplay_fetch (g : Grid) (r : Address) : (s.setDisplay g).fetch r = s.fetch r := rfl

/-! ## enterFault -/

@[simp] theorem enterFault_v (f : FaultCondition) (w : Word) (a : Address) : (s.enterFault f w a).v = s.v := rfl
@[simp] theorem enterFault_i (f : FaultCondition) (w : Word) (a : Address) : (s.enterFault f w a).i = s.i := rfl
@[simp] theorem enterFault_pc (f : FaultCondition) (w : Word) (a : Address) : (s.enterFault f w a).pc = a := rfl
@[simp] theorem enterFault_sp (f : FaultCondition) (w : Word) (a : Address) : (s.enterFault f w a).sp = s.sp := rfl
@[simp] theorem enterFault_stack (f : FaultCondition) (w : Word) (a : Address) : (s.enterFault f w a).stack = s.stack := rfl
@[simp] theorem enterFault_dt (f : FaultCondition) (w : Word) (a : Address) : (s.enterFault f w a).dt = s.dt := rfl
@[simp] theorem enterFault_st (f : FaultCondition) (w : Word) (a : Address) : (s.enterFault f w a).st = s.st := rfl
@[simp] theorem enterFault_mem (f : FaultCondition) (w : Word) (a : Address) : (s.enterFault f w a).mem = s.mem := rfl
@[simp] theorem enterFault_coreStatus (f : FaultCondition) (w : Word) (a : Address) : (s.enterFault f w a).coreStatus = .halted := rfl
@[simp] theorem enterFault_faultCode (f : FaultCondition) (w : Word) (a : Address) : (s.enterFault f w a).faultCode = f.code := rfl
@[simp] theorem enterFault_faultWord (f : FaultCondition) (w : Word) (a : Address) : (s.enterFault f w a).faultWord = w := rfl
@[simp] theorem enterFault_faultPc (f : FaultCondition) (w : Word) (a : Address) : (s.enterFault f w a).faultPc = a := rfl
@[simp] theorem enterFault_tclkState (f : FaultCondition) (w : Word) (a : Address) : (s.enterFault f w a).tclkState = s.tclkState := rfl
@[simp] theorem enterFault_tclkPaused (f : FaultCondition) (w : Word) (a : Address) : (s.enterFault f w a).tclkPaused = s.tclkPaused := rfl
@[simp] theorem enterFault_display (f : FaultCondition) (w : Word) (a : Address) : (s.enterFault f w a).display = s.display := rfl
@[simp] theorem enterFault_keys (f : FaultCondition) (w : Word) (a : Address) : (s.enterFault f w a).keys = s.keys := rfl
@[simp] theorem enterFault_draws (f : FaultCondition) (w : Word) (a : Address) : (s.enterFault f w a).draws = s.draws := rfl
@[simp] theorem enterFault_slot (f : FaultCondition) (w : Word) (a : Address) : (s.enterFault f w a).slot = s.slot := rfl
@[simp] theorem enterFault_pending (f : FaultCondition) (w : Word) (a : Address) : (s.enterFault f w a).pending = s.pending := rfl
@[simp] theorem enterFault_getV (f : FaultCondition) (w : Word) (a : Address) (r : Nibble) : (s.enterFault f w a).getV r = s.getV r := rfl
@[simp] theorem enterFault_memRead (f : FaultCondition) (w : Word) (a : Address) (r : Address) : (s.enterFault f w a).memRead r = s.memRead r := rfl
@[simp] theorem enterFault_fetch (f : FaultCondition) (w : Word) (a : Address) (r : Address) : (s.enterFault f w a).fetch r = s.fetch r := rfl

/-! ## takeSlot -/

@[simp] theorem takeSlot_v : (s.takeSlot).v = s.v := rfl
@[simp] theorem takeSlot_i : (s.takeSlot).i = s.i := rfl
@[simp] theorem takeSlot_pc : (s.takeSlot).pc = s.pc := rfl
@[simp] theorem takeSlot_sp : (s.takeSlot).sp = s.sp := rfl
@[simp] theorem takeSlot_stack : (s.takeSlot).stack = s.stack := rfl
@[simp] theorem takeSlot_dt : (s.takeSlot).dt = s.dt := rfl
@[simp] theorem takeSlot_st : (s.takeSlot).st = s.st := rfl
@[simp] theorem takeSlot_mem : (s.takeSlot).mem = s.mem := rfl
@[simp] theorem takeSlot_coreStatus : (s.takeSlot).coreStatus = s.coreStatus := rfl
@[simp] theorem takeSlot_faultCode : (s.takeSlot).faultCode = s.faultCode := rfl
@[simp] theorem takeSlot_faultWord : (s.takeSlot).faultWord = s.faultWord := rfl
@[simp] theorem takeSlot_faultPc : (s.takeSlot).faultPc = s.faultPc := rfl
@[simp] theorem takeSlot_tclkState : (s.takeSlot).tclkState = s.tclkState := rfl
@[simp] theorem takeSlot_tclkPaused : (s.takeSlot).tclkPaused = s.tclkPaused := rfl
@[simp] theorem takeSlot_display : (s.takeSlot).display = s.display := rfl
@[simp] theorem takeSlot_keys : (s.takeSlot).keys = s.keys := rfl
@[simp] theorem takeSlot_draws : (s.takeSlot).draws = s.draws := rfl
@[simp] theorem takeSlot_slot : (s.takeSlot).slot = s.slot + 1 := rfl
@[simp] theorem takeSlot_pending : (s.takeSlot).pending = s.pending.tail := rfl
@[simp] theorem takeSlot_getV (r : Nibble) : (s.takeSlot).getV r = s.getV r := rfl
@[simp] theorem takeSlot_memRead (r : Address) : (s.takeSlot).memRead r = s.memRead r := rfl
@[simp] theorem takeSlot_fetch (r : Address) : (s.takeSlot).fetch r = s.fetch r := rfl

/-! ## withAgentView -/

@[simp] theorem withAgentView_v (a : AgentView) : (s.withAgentView a).v = s.v := rfl
@[simp] theorem withAgentView_i (a : AgentView) : (s.withAgentView a).i = s.i := rfl
@[simp] theorem withAgentView_pc (a : AgentView) : (s.withAgentView a).pc = s.pc := rfl
@[simp] theorem withAgentView_sp (a : AgentView) : (s.withAgentView a).sp = s.sp := rfl
@[simp] theorem withAgentView_stack (a : AgentView) : (s.withAgentView a).stack = s.stack := rfl
@[simp] theorem withAgentView_dt (a : AgentView) : (s.withAgentView a).dt = a.dt := rfl
@[simp] theorem withAgentView_st (a : AgentView) : (s.withAgentView a).st = a.st := rfl
@[simp] theorem withAgentView_mem (a : AgentView) : (s.withAgentView a).mem = s.mem := rfl
@[simp] theorem withAgentView_coreStatus (a : AgentView) : (s.withAgentView a).coreStatus = s.coreStatus := rfl
@[simp] theorem withAgentView_faultCode (a : AgentView) : (s.withAgentView a).faultCode = s.faultCode := rfl
@[simp] theorem withAgentView_faultWord (a : AgentView) : (s.withAgentView a).faultWord = s.faultWord := rfl
@[simp] theorem withAgentView_faultPc (a : AgentView) : (s.withAgentView a).faultPc = s.faultPc := rfl
@[simp] theorem withAgentView_tclkState (a : AgentView) : (s.withAgentView a).tclkState = a.tclkState := rfl
@[simp] theorem withAgentView_tclkPaused (a : AgentView) : (s.withAgentView a).tclkPaused = a.tclkPaused := rfl
@[simp] theorem withAgentView_display (a : AgentView) : (s.withAgentView a).display = s.display := rfl
@[simp] theorem withAgentView_keys (a : AgentView) : (s.withAgentView a).keys = a.keys := rfl
@[simp] theorem withAgentView_draws (a : AgentView) : (s.withAgentView a).draws = s.draws := rfl
@[simp] theorem withAgentView_slot (a : AgentView) : (s.withAgentView a).slot = s.slot := rfl
@[simp] theorem withAgentView_pending (a : AgentView) : (s.withAgentView a).pending = s.pending := rfl
@[simp] theorem withAgentView_getV (a : AgentView) (r : Nibble) : (s.withAgentView a).getV r = s.getV r := rfl
@[simp] theorem withAgentView_memRead (a : AgentView) (r : Address) : (s.withAgentView a).memRead r = s.memRead r := rfl
@[simp] theorem withAgentView_fetch (a : AgentView) (r : Address) : (s.withAgentView a).fetch r = s.fetch r := rfl

/-! ## Derived updates over the basic ones -/

@[simp] theorem setVF_eq (b : Byte) : s.setVF b = s.setV 0xF#4 b := rfl

@[simp] theorem setResultAndFlag_eq (x : Nibble) (r : Byte) (c : Bool) :
    s.setResultAndFlag x r c = (s.setV x r).setV 0xF#4 (flagByte c) := rfl

@[simp] theorem advancePc_eq : s.advancePc = s.setPc (s.pc + 2#12) := rfl

@[simp] theorem rewindPc_eq : s.rewindPc = s.setPc (s.pc - 2#12) := rfl

@[simp] theorem raise_eq (f : FaultCondition) (i : Instr) :
    s.raise f i = s.enterFault f (encode i) (s.pc - 2#12) := rfl

@[simp] theorem skipIf_eq (c : Bool) : s.skipIf c = s.setPc (if c then s.pc + 2#12 else s.pc) := by
  cases c <;> rfl

theorem land_eq (evs : List AgentEvent) :
    s.land evs = s.withAgentView (evs.foldl AgentView.apply s.agentView) := rfl

@[simp] theorem land_nil : s.land [] = s := rfl

@[simp] theorem setPc_self : s.setPc s.pc = s := rfl

@[simp] theorem setPc_setPc (a b : Address) : (s.setPc a).setPc b = s.setPc b := rfl

/-! ## land changes the agents' part alone (60_exceptions R261) -/

@[simp] theorem land_v (evs : List AgentEvent) : (s.land evs).v = s.v := rfl
@[simp] theorem land_i (evs : List AgentEvent) : (s.land evs).i = s.i := rfl
@[simp] theorem land_pc (evs : List AgentEvent) : (s.land evs).pc = s.pc := rfl
@[simp] theorem land_sp (evs : List AgentEvent) : (s.land evs).sp = s.sp := rfl
@[simp] theorem land_stack (evs : List AgentEvent) : (s.land evs).stack = s.stack := rfl
theorem land_dt (evs : List AgentEvent) : (s.land evs).dt = (evs.foldl AgentView.apply s.agentView).dt := rfl
theorem land_st (evs : List AgentEvent) : (s.land evs).st = (evs.foldl AgentView.apply s.agentView).st := rfl
@[simp] theorem land_mem (evs : List AgentEvent) : (s.land evs).mem = s.mem := rfl
@[simp] theorem land_coreStatus (evs : List AgentEvent) : (s.land evs).coreStatus = s.coreStatus := rfl
@[simp] theorem land_faultCode (evs : List AgentEvent) : (s.land evs).faultCode = s.faultCode := rfl
@[simp] theorem land_faultWord (evs : List AgentEvent) : (s.land evs).faultWord = s.faultWord := rfl
@[simp] theorem land_faultPc (evs : List AgentEvent) : (s.land evs).faultPc = s.faultPc := rfl
theorem land_tclkState (evs : List AgentEvent) : (s.land evs).tclkState = (evs.foldl AgentView.apply s.agentView).tclkState := rfl
theorem land_tclkPaused (evs : List AgentEvent) : (s.land evs).tclkPaused = (evs.foldl AgentView.apply s.agentView).tclkPaused := rfl
@[simp] theorem land_display (evs : List AgentEvent) : (s.land evs).display = s.display := rfl
theorem land_keys (evs : List AgentEvent) : (s.land evs).keys = (evs.foldl AgentView.apply s.agentView).keys := rfl
@[simp] theorem land_draws (evs : List AgentEvent) : (s.land evs).draws = s.draws := rfl
@[simp] theorem land_slot (evs : List AgentEvent) : (s.land evs).slot = s.slot := rfl
@[simp] theorem land_pending (evs : List AgentEvent) : (s.land evs).pending = s.pending := rfl
@[simp] theorem land_getV (evs : List AgentEvent) (x : Nibble) : (s.land evs).getV x = s.getV x := rfl
@[simp] theorem land_memRead (evs : List AgentEvent) (a : Address) : (s.land evs).memRead a = s.memRead a := rfl
@[simp] theorem land_fetch (evs : List AgentEvent) (a : Address) : (s.land evs).fetch a = s.fetch a := rfl

/-! ## The state the engine finds -/

theorem step_eq : step s = s.arrived.executeOne := rfl

@[simp] theorem arrived_v : s.arrived.v = s.v := rfl
@[simp] theorem arrived_i : s.arrived.i = s.i := rfl
@[simp] theorem arrived_pc : s.arrived.pc = s.pc := rfl
@[simp] theorem arrived_sp : s.arrived.sp = s.sp := rfl
@[simp] theorem arrived_stack : s.arrived.stack = s.stack := rfl
@[simp] theorem arrived_mem : s.arrived.mem = s.mem := rfl
@[simp] theorem arrived_coreStatus : s.arrived.coreStatus = s.coreStatus := rfl
@[simp] theorem arrived_faultCode : s.arrived.faultCode = s.faultCode := rfl
@[simp] theorem arrived_faultWord : s.arrived.faultWord = s.faultWord := rfl
@[simp] theorem arrived_faultPc : s.arrived.faultPc = s.faultPc := rfl
@[simp] theorem arrived_display : s.arrived.display = s.display := rfl
@[simp] theorem arrived_draws : s.arrived.draws = s.draws := rfl
@[simp] theorem arrived_slot : s.arrived.slot = s.slot + 1 := rfl
@[simp] theorem arrived_pending : s.arrived.pending = s.pending.tail := rfl
@[simp] theorem arrived_getV (x : Nibble) : s.arrived.getV x = s.getV x := rfl
@[simp] theorem arrived_memRead (a : Address) : s.arrived.memRead a = s.memRead a := rfl
@[simp] theorem arrived_fetch (a : Address) : s.arrived.fetch a = s.fetch a := rfl

end Sys2Proof.Machine
end

