-- ==== Sys2Proof/Laws/Memory.lean ====
section
/-! SUPPORT. What the memory operations do: a read after a write, the canonical form kept, and equal memories equal
data (20_memory R52, R58, R60). -/

namespace Sys2Proof.Machine

/-! ## The canonical form, one cell at a time -/

theorem wf_nil : Memory.wf [] := ⟨List.Pairwise.nil, fun _ h => absurd h (List.not_mem_nil)⟩

theorem wf_cons {b : Nat} {u : Byte} {m : Memory} :
    Memory.wf ((b, u) :: m) ↔
      (∀ c ∈ m, b < c.1) ∧ b < Config.memSize ∧ u ≠ initialByte b ∧ Memory.wf m := by
  simp only [Memory.wf, List.pairwise_cons, List.forall_mem_cons]
  tauto

theorem wf_tail {b : Nat} {u : Byte} {m : Memory} (h : Memory.wf ((b, u) :: m)) : Memory.wf m :=
  (wf_cons.mp h).2.2.2

/-! ## Reading -/

/-- Below every listed address a byte reads as unlisted. -/
theorem read_below {m : Memory} {a : Nat} (h : ∀ c ∈ m, a < c.1) : Memory.read m a = initialByte a := by
  cases m with
  | nil => rfl
  | cons c m =>
    obtain ⟨b, u⟩ := c
    have hb : a < b := h (b, u) (by simp)
    simp [Memory.read, hb, Nat.ne_of_lt hb]

theorem read_place {m : Memory} {a : Nat} (h : ∀ c ∈ m, a < c.1) (w : Byte) (b : Nat) :
    Memory.read (Memory.place a w m) b = if b = a then w else Memory.read m b := by
  by_cases hw : w = initialByte a
  · rw [Memory.place, if_pos hw]
    split
    · next hb => rw [hb, read_below h, hw]
    · rfl
  · rw [Memory.place, if_neg hw, Memory.read]
    split
    · rfl
    · split
      · next hb => exact (read_below fun c hc => Nat.lt_trans hb (h c hc)).symm
      · rfl

/-- A read after a write: the byte written, and every other byte as before. -/
theorem read_write {m : Memory} (h : Memory.wf m) (a : Nat) (w : Byte) (b : Nat) :
    Memory.read (Memory.write m a w) b = if b = a then w else Memory.read m b := by
  induction m with
  | nil => exact read_place (fun _ h => absurd h (List.not_mem_nil)) w b
  | cons c m ih =>
    obtain ⟨d, u⟩ := c
    obtain ⟨hd, -, -, hm⟩ := wf_cons.mp h
    rw [Memory.write]
    split
    · next had =>
      refine read_place ?_ w b
      intro c hc
      rcases List.mem_cons.mp hc with rfl | hc
      · exact had
      · exact Nat.lt_trans had (hd c hc)
    · split
      · next had =>
        subst had
        rw [read_place hd]
        split
        · rfl
        · next hb =>
          rw [Memory.read, if_neg hb]
          split
          · next hlt => exact read_below fun c hc => Nat.lt_trans hlt (hd c hc)
          · rfl
      · simp only [Memory.read, ih hm]
        split_ifs <;> first | rfl | omega

/-! ## The canonical form is kept -/

theorem wf_place {m : Memory} {a : Nat} (hm : Memory.wf m) (h : ∀ c ∈ m, a < c.1) (ha : a < Config.memSize) (w : Byte) :
    Memory.wf (Memory.place a w m) := by
  unfold Memory.place
  split
  · exact hm
  · next hw => exact wf_cons.mpr ⟨h, ha, hw, hm⟩

theorem mem_place {m : Memory} {a : Nat} {w : Byte} {c : Host.Cell} (hc : c ∈ Memory.place a w m) :
    c = (a, w) ∨ c ∈ m := by
  unfold Memory.place at hc
  split at hc
  · exact .inr hc
  · exact List.mem_cons.mp hc

theorem mem_write {m : Memory} {a : Nat} {w : Byte} {c : Host.Cell} (hc : c ∈ Memory.write m a w) :
    c.1 = a ∨ c ∈ m := by
  induction m with
  | nil => exact (mem_place hc).imp (fun h => by rw [h]) id
  | cons d m ih =>
    obtain ⟨b, u⟩ := d
    rw [Memory.write] at hc
    split at hc
    · exact (mem_place hc).imp (fun h => by rw [h]) id
    · split at hc
      · exact (mem_place hc).imp (fun h => by rw [h]) (List.mem_cons_of_mem _)
      · rcases List.mem_cons.mp hc with rfl | hc
        · exact .inr (by simp)
        · exact (ih hc).imp id (List.mem_cons_of_mem _)

theorem wf_write {m : Memory} (h : Memory.wf m) {a : Nat} (ha : a < Config.memSize) (w : Byte) :
    Memory.wf (Memory.write m a w) := by
  induction m with
  | nil => exact wf_place h (fun _ h => absurd h (List.not_mem_nil)) ha w
  | cons c m ih =>
    obtain ⟨b, u⟩ := c
    obtain ⟨hb, hbs, hu, hm⟩ := wf_cons.mp h
    rw [Memory.write]
    split
    · next hab =>
      refine wf_place h ?_ ha w
      intro c hc
      rcases List.mem_cons.mp hc with rfl | hc
      · exact hab
      · exact Nat.lt_trans hab (hb c hc)
    · split
      · next hab => subst hab; exact wf_place hm hb ha w
      · refine wf_cons.mpr ⟨?_, hbs, hu, ih hm⟩
        intro c hc
        rcases mem_write hc with h1 | h1
        · omega
        · exact hb c h1

theorem wf_writeBytes {m : Memory} (h : Memory.wf m) (bs : List Byte) {a : Nat} (ha : a + bs.length ≤ Config.memSize) :
    Memory.wf (Memory.writeBytes m a bs) := by
  induction bs generalizing m a with
  | nil => exact h
  | cons b bs ih =>
    simp only [List.length_cons] at ha
    exact ih (wf_write h (by omega) b) (by omega)

/-- A block write: the bytes of the block, and every other byte as before. -/
theorem read_writeBytes {m : Memory} (h : Memory.wf m) (bs : List Byte) {a : Nat}
    (ha : a + bs.length ≤ Config.memSize) (b : Nat) :
    Memory.read (Memory.writeBytes m a bs) b =
      if a ≤ b ∧ b < a + bs.length then bs.getD (b - a) 0x00#8 else Memory.read m b := by
  induction bs generalizing m a with
  | nil => rw [Memory.writeBytes, if_neg (by simp only [List.length_nil]; omega)]
  | cons c bs ih =>
    simp only [List.length_cons] at ha
    rw [Memory.writeBytes, ih (wf_write h (by omega) c) (by omega), read_write h]
    simp only [List.length_cons]
    by_cases h1 : b = a
    · subst h1
      rw [if_neg (by omega), if_pos rfl, if_pos (by omega)]
      simp
    · by_cases h2 : a + 1 ≤ b ∧ b < a + 1 + bs.length
      · rw [if_pos h2, if_pos (by omega), show b - a = (b - (a + 1)) + 1 by omega]
        simp
      · rw [if_neg h2, if_neg h1, if_neg (by omega)]

/-- Canonical memories that read the same are the same data. -/
theorem eq_of_read_eq {m n : Memory} (hm : Memory.wf m) (hn : Memory.wf n)
    (h : ∀ a, Memory.read m a = Memory.read n a) : m = n := by
  induction m generalizing n with
  | nil =>
    cases n with
    | nil => rfl
    | cons c n =>
      obtain ⟨b, u⟩ := c
      obtain ⟨-, -, hu, -⟩ := wf_cons.mp hn
      have := h b
      simp [Memory.read] at this
      exact absurd this.symm hu
  | cons c m ih =>
    obtain ⟨b, u⟩ := c
    obtain ⟨hb, -, hu, hm'⟩ := wf_cons.mp hm
    cases n with
    | nil =>
      have := h b
      simp [Memory.read] at this
      exact absurd this hu
    | cons d n =>
      obtain ⟨e, x⟩ := d
      obtain ⟨he, -, hx, hn'⟩ := wf_cons.mp hn
      have hbe : b = e := by
        rcases Nat.lt_trichotomy b e with hlt | heq | hgt
        · have := h b
          simp [Memory.read, Nat.ne_of_lt hlt, hlt] at this
          exact absurd this hu
        · exact heq
        · have := h e
          simp [Memory.read, Nat.ne_of_lt hgt, hgt] at this
          exact absurd this.symm hx
      subst hbe
      have hux : u = x := by simpa [Memory.read] using h b
      subst hux
      congr 1
      refine ih hm' hn' fun a => ?_
      rcases Nat.lt_trichotomy a b with hlt | heq | hgt
      · rw [read_below fun c hc => Nat.lt_trans hlt (hb c hc), read_below fun c hc => Nat.lt_trans hlt (he c hc)]
      · subst heq; rw [read_below hb, read_below he]
      · have := h a
        simpa [Memory.read, Nat.ne_of_gt hgt, Nat.not_lt_of_gt hgt] using this

/-! ## On states -/

section
variable {s : State}

theorem memRead_memWrite (h : Memory.wf s.mem) (a : Address) (w : Byte) (b : Address) :
    (s.memWrite a w).memRead b = if b = a then w else s.memRead b := by
  simp only [State.memRead, memWrite_mem, read_write h, BitVec.toNat_inj]

theorem wf_memWrite (h : Memory.wf s.mem) (a : Address) (w : Byte) : Memory.wf (s.memWrite a w).mem :=
  wf_write h a.isLt w

end

end Sys2Proof.Machine
end

