-- ==== Sys2Proof/Laws/Registers.lean ====
section
/-! SUPPORT. What the register, range, stack, key and operand operations do. -/

namespace Sys2Proof.Machine

variable (s : State)

/-! ## One register (10_state R21) -/

@[simp] theorem getV_setV (x : Nibble) (b : Byte) (r : Nibble) :
    (s.setV x b).getV r = if r = x then b else s.getV r := by
  simp only [State.getV, State.setV, Vector.getElem_set, BitVec.toNat_inj, eq_comm (a := x)]

theorem setV_comm {x y : Nibble} (h : x ≠ y) (b c : Byte) : (s.setV x b).setV y c = (s.setV y c).setV x b := by
  have hn : x.toNat ≠ y.toNat := fun e => h (BitVec.eq_of_toNat_eq e)
  simp only [State.setV, Vector.set_comm b c hn]

@[simp] theorem setV_setV (x : Nibble) (b c : Byte) : (s.setV x b).setV x c = s.setV x c := by
  simp [State.setV]

/-- Two states with the same registers have the same vector of registers. -/
theorem v_eq_of_getV {s t : State} (h : ∀ x, t.getV x = s.getV x) : t.v = s.v := by
  apply Vector.ext
  intro k hk
  have := h (BitVec.ofNat 4 k)
  simpa [State.getV, Nat.mod_eq_of_lt hk] using this

@[simp] theorem flagByte_toNat (c : Bool) : (flagByte c).toNat = if c then 1 else 0 := by cases c <;> rfl

/-- The flag of a right shift is the old bit 0 (41_alu R110). -/
theorem shiftedOutRight_toNat : ∀ a : Byte, (flagByte (shiftedOutRight a)).toNat = a.toNat % 2 := by decide

/-- The flag of a left shift is the old bit 7 (41_alu R112). -/
theorem shiftedOutLeft_toNat : ∀ a : Byte, (flagByte (shiftedOutLeft a)).toNat = a.toNat / 128 := by decide

/-! ## A range of registers (43_index_memory R174, R175) -/

theorem loadRange_getV (a : Address) {n : Nat} (hn : n ≤ 16) (x : Nibble) :
    (s.loadRange a n).getV x = if x.toNat < n then s.memRead (a + BitVec.ofNat 12 x.toNat) else s.getV x := by
  induction n with
  | zero => rfl
  | succ n ih =>
    rw [State.loadRange, getV_setV, ih (by omega)]
    have hx : x = BitVec.ofNat 4 n ↔ x.toNat = n := by
      rw [← BitVec.toNat_inj, BitVec.toNat_ofNat, Nat.mod_eq_of_lt (by omega)]
    by_cases h : x.toNat = n
    · rw [if_pos (hx.mpr h), if_pos (by omega), h]
    · rw [if_neg (mt hx.mp h)]
      by_cases h2 : x.toNat < n
      · rw [if_pos h2, if_pos (by omega)]
      · rw [if_neg h2, if_neg (by omega)]

variable {s} in
theorem wf_storeRange (h : Memory.wf s.mem) (a : Address) (n : Nat) : Memory.wf (s.storeRange a n).mem := by
  induction n with
  | zero => exact h
  | succ n ih => exact wf_memWrite ih _ _

variable {s} in
/-- A stored range: the byte at offset `k` is register `k`, every byte at another offset is as before. -/
theorem memRead_storeRange (h : Memory.wf s.mem) (a : Address) {n : Nat} (hn : n ≤ 16) (b : Address) :
    (s.storeRange a n).memRead b =
      if (b - a).toNat < n then s.getV (BitVec.ofNat 4 (b - a).toNat) else s.memRead b := by
  induction n with
  | zero => rfl
  | succ n ih =>
    rw [State.storeRange, memRead_memWrite (wf_storeRange h a n), ih (by omega)]
    have hb : b = a + BitVec.ofNat 12 n ↔ (b - a).toNat = n := by
      constructor
      · intro e
        rw [e, add_sub_cancel_left, BitVec.toNat_ofNat, Nat.mod_eq_of_lt (by omega)]
      · intro e
        rw [← e, BitVec.ofNat_toNat, BitVec.setWidth_eq, BitVec.add_comm, BitVec.sub_add_cancel]
    by_cases h1 : (b - a).toNat = n
    · rw [if_pos (hb.mpr h1), if_pos (by omega), h1]
    · rw [if_neg (mt hb.mp h1)]
      by_cases h2 : (b - a).toNat < n
      · rw [if_pos h2, if_pos (by omega)]
      · rw [if_neg h2, if_neg (by omega)]

/-! ## Frames of the ranges -/

@[simp] theorem storeRange_i (a : Address) (n : Nat) : (s.storeRange a n).i = s.i := by
  induction n <;> simp_all [State.storeRange]

@[simp] theorem storeRange_pc (a : Address) (n : Nat) : (s.storeRange a n).pc = s.pc := by
  induction n <;> simp_all [State.storeRange]

@[simp] theorem storeRange_sp (a : Address) (n : Nat) : (s.storeRange a n).sp = s.sp := by
  induction n <;> simp_all [State.storeRange]

@[simp] theorem storeRange_stack (a : Address) (n : Nat) : (s.storeRange a n).stack = s.stack := by
  induction n <;> simp_all [State.storeRange]

@[simp] theorem storeRange_dt (a : Address) (n : Nat) : (s.storeRange a n).dt = s.dt := by
  induction n <;> simp_all [State.storeRange]

@[simp] theorem storeRange_st (a : Address) (n : Nat) : (s.storeRange a n).st = s.st := by
  induction n <;> simp_all [State.storeRange]

@[simp] theorem storeRange_coreStatus (a : Address) (n : Nat) : (s.storeRange a n).coreStatus = s.coreStatus := by
  induction n <;> simp_all [State.storeRange]

@[simp] theorem storeRange_faultCode (a : Address) (n : Nat) : (s.storeRange a n).faultCode = s.faultCode := by
  induction n <;> simp_all [State.storeRange]

@[simp] theorem storeRange_faultWord (a : Address) (n : Nat) : (s.storeRange a n).faultWord = s.faultWord := by
  induction n <;> simp_all [State.storeRange]

@[simp] theorem storeRange_faultPc (a : Address) (n : Nat) : (s.storeRange a n).faultPc = s.faultPc := by
  induction n <;> simp_all [State.storeRange]

@[simp] theorem storeRange_tclkState (a : Address) (n : Nat) : (s.storeRange a n).tclkState = s.tclkState := by
  induction n <;> simp_all [State.storeRange]

@[simp] theorem storeRange_tclkPaused (a : Address) (n : Nat) : (s.storeRange a n).tclkPaused = s.tclkPaused := by
  induction n <;> simp_all [State.storeRange]

@[simp] theorem storeRange_display (a : Address) (n : Nat) : (s.storeRange a n).display = s.display := by
  induction n <;> simp_all [State.storeRange]

@[simp] theorem storeRange_keys (a : Address) (n : Nat) : (s.storeRange a n).keys = s.keys := by
  induction n <;> simp_all [State.storeRange]

@[simp] theorem storeRange_draws (a : Address) (n : Nat) : (s.storeRange a n).draws = s.draws := by
  induction n <;> simp_all [State.storeRange]

@[simp] theorem storeRange_slot (a : Address) (n : Nat) : (s.storeRange a n).slot = s.slot := by
  induction n <;> simp_all [State.storeRange]

@[simp] theorem storeRange_pending (a : Address) (n : Nat) : (s.storeRange a n).pending = s.pending := by
  induction n <;> simp_all [State.storeRange]

@[simp] theorem storeRange_getV (a : Address) (n : Nat) (x : Nibble) : (s.storeRange a n).getV x = s.getV x := by
  induction n <;> simp_all [State.storeRange]

@[simp] theorem loadRange_i (a : Address) (n : Nat) : (s.loadRange a n).i = s.i := by
  induction n <;> simp_all [State.loadRange]

@[simp] theorem loadRange_pc (a : Address) (n : Nat) : (s.loadRange a n).pc = s.pc := by
  induction n <;> simp_all [State.loadRange]

@[simp] theorem loadRange_sp (a : Address) (n : Nat) : (s.loadRange a n).sp = s.sp := by
  induction n <;> simp_all [State.loadRange]

@[simp] theorem loadRange_stack (a : Address) (n : Nat) : (s.loadRange a n).stack = s.stack := by
  induction n <;> simp_all [State.loadRange]

@[simp] theorem loadRange_dt (a : Address) (n : Nat) : (s.loadRange a n).dt = s.dt := by
  induction n <;> simp_all [State.loadRange]

@[simp] theorem loadRange_st (a : Address) (n : Nat) : (s.loadRange a n).st = s.st := by
  induction n <;> simp_all [State.loadRange]

@[simp] theorem loadRange_mem (a : Address) (n : Nat) : (s.loadRange a n).mem = s.mem := by
  induction n <;> simp_all [State.loadRange]

@[simp] theorem loadRange_coreStatus (a : Address) (n : Nat) : (s.loadRange a n).coreStatus = s.coreStatus := by
  induction n <;> simp_all [State.loadRange]

@[simp] theorem loadRange_faultCode (a : Address) (n : Nat) : (s.loadRange a n).faultCode = s.faultCode := by
  induction n <;> simp_all [State.loadRange]

@[simp] theorem loadRange_faultWord (a : Address) (n : Nat) : (s.loadRange a n).faultWord = s.faultWord := by
  induction n <;> simp_all [State.loadRange]

@[simp] theorem loadRange_faultPc (a : Address) (n : Nat) : (s.loadRange a n).faultPc = s.faultPc := by
  induction n <;> simp_all [State.loadRange]

@[simp] theorem loadRange_tclkState (a : Address) (n : Nat) : (s.loadRange a n).tclkState = s.tclkState := by
  induction n <;> simp_all [State.loadRange]

@[simp] theorem loadRange_tclkPaused (a : Address) (n : Nat) : (s.loadRange a n).tclkPaused = s.tclkPaused := by
  induction n <;> simp_all [State.loadRange]

@[simp] theorem loadRange_display (a : Address) (n : Nat) : (s.loadRange a n).display = s.display := by
  induction n <;> simp_all [State.loadRange]

@[simp] theorem loadRange_keys (a : Address) (n : Nat) : (s.loadRange a n).keys = s.keys := by
  induction n <;> simp_all [State.loadRange]

@[simp] theorem loadRange_draws (a : Address) (n : Nat) : (s.loadRange a n).draws = s.draws := by
  induction n <;> simp_all [State.loadRange]

@[simp] theorem loadRange_slot (a : Address) (n : Nat) : (s.loadRange a n).slot = s.slot := by
  induction n <;> simp_all [State.loadRange]

@[simp] theorem loadRange_pending (a : Address) (n : Nat) : (s.loadRange a n).pending = s.pending := by
  induction n <;> simp_all [State.loadRange]

@[simp] theorem loadRange_memRead (a : Address) (n : Nat) (b : Address) :
    (s.loadRange a n).memRead b = s.memRead b := by
  induction n <;> simp_all [State.loadRange]

/-! ## Reading a block (45_display R201) -/

theorem readBytes_length (a : Address) (n : Nat) : (s.readBytes a n).length = n := by
  induction n generalizing a with
  | zero => rfl
  | succ n ih => simp [State.readBytes, ih]

theorem readBytes_getElem (a : Address) (n r : Nat) (hr : r < n) :
    (s.readBytes a n)[r]? = some (s.memRead (a + BitVec.ofNat 12 r)) := by
  induction n generalizing a r with
  | zero => omega
  | succ n ih =>
    cases r with
    | zero => simp [State.readBytes]
    | succ r =>
      rw [State.readBytes, List.getElem?_cons_succ, ih (a + 1#12) r (by omega)]
      congr 2
      rw [BitVec.add_assoc]
      congr 1
      apply BitVec.eq_of_toNat_eq
      simp [BitVec.toNat_add, Nat.add_comm]

/-- A block read depends on the bytes of memory alone. -/
theorem readBytes_congr {s t : State} (h : ∀ a, t.memRead a = s.memRead a) (a : Address) (n : Nat) :
    t.readBytes a n = s.readBytes a n := by
  induction n generalizing a with
  | zero => rfl
  | succ n ih => simp [State.readBytes, h, ih]

/-! ## The stack (10_state R29) -/

theorem readSlot_writeSlot {k : Byte} (hk : k.toNat < Config.stackDepth) (a : Address) :
    (s.writeSlot k a).readSlot k = some a := by
  have : k.toNat < 16 := hk
  simp [State.readSlot, this]

theorem readSlot_writeSlot_ne {k j : Byte} (h : j ≠ k) (a : Address) :
    (s.writeSlot k a).readSlot j = s.readSlot j := by
  have hn : k.toNat ≠ j.toNat := fun e => h (BitVec.eq_of_toNat_eq e.symm)
  simp [State.readSlot, hn]

theorem readSlot_eq_some {k : Byte} (hk : k.toNat < Config.stackDepth) :
    s.readSlot k = some (s.stack[k.toNat]'hk) := Vector.getElem?_eq_getElem hk

theorem readSlot_eq_none {k : Byte} (hk : Config.stackDepth ≤ k.toNat) : s.readSlot k = none :=
  Vector.getElem?_eq_none hk

/-! ## Keys (60_exceptions R257) -/

theorem firstPressed_none : s.firstPressed = none ↔ ∀ k, s.keyPressed k = false := by
  simp only [State.firstPressed, List.find?_eq_none, List.mem_map, List.mem_range]
  constructor
  · intro h k
    have := h k ⟨k.toNat, k.isLt, by simp⟩
    simpa using this
  · rintro h k -
    simp [h k]

theorem firstPressed_some {k : Nibble} :
    s.firstPressed = some k ↔ s.keyPressed k = true ∧ ∀ j, j.toNat < k.toNat → s.keyPressed j = false := by
  rw [State.firstPressed, List.find?_eq_some_iff_getElem]
  constructor
  · rintro ⟨hp, i, hi, hk, hj⟩
    refine ⟨hp, fun j hjk => ?_⟩
    simp only [List.length_map, List.length_range] at hi
    have hik : k.toNat = i := by rw [← hk]; simp [Nat.mod_eq_of_lt hi]
    have := hj j.toNat (by omega)
    simpa using this
  · rintro ⟨hp, hj⟩
    refine ⟨hp, k.toNat, by simpa using k.isLt, by simp, fun j hjk => ?_⟩
    have hj16 : j < 16 := Nat.lt_trans hjk k.isLt
    have := hj (BitVec.ofNat 4 j) (by simpa [Nat.mod_eq_of_lt hj16] using hjk)
    simpa using this

/-! ## Operand forms as numbers -/

theorem glyphAddress_toNat (x : Nibble) : (s.glyphAddress x).toNat = 5 * (s.getV x).toNat := by
  have := (s.getV x).isLt
  simp only [State.glyphAddress, Config.fontGlyphBytes, BitVec.toNat_ofNat]
  omega

theorem keyIndex_toNat (x : Nibble) : (s.keyIndex x).toNat = (s.getV x).toNat % 16 := by
  simp [State.keyIndex]

theorem vAsAddress_toNat (x : Nibble) : (s.vAsAddress x).toNat = (s.getV x).toNat := by
  have := (s.getV x).isLt
  simp [State.vAsAddress]
  omega

end Sys2Proof.Machine
end

