-- ==== Sys2Proof/Laws/Agents.lean ====
section
/-! SUPPORT. What the transactions of the timer clock and the host do (60_exceptions R241 to R246, R256). -/

namespace Sys2Proof.Machine

@[simp] theorem tickByte_toNat (b : Byte) : (tickByte b).toNat = b.toNat - 1 := by
  unfold tickByte
  split
  · next h => subst h; rfl
  · next h =>
    have hb : b.toNat ≠ 0 := fun e => h (BitVec.eq_of_toNat_eq e)
    have := b.isLt
    rw [BitVec.toNat_sub, BitVec.toNat_ofNat]
    omega

theorem ticking_iff (a : AgentView) : a.ticking = true ↔ a.tclkState = .running ∧ a.tclkPaused = false := by
  simp [AgentView.ticking]

@[simp] theorem agentView_withAgentView (s : State) (a : AgentView) : (s.withAgentView a).agentView = a := rfl

@[simp] theorem withAgentView_withAgentView (s : State) (a b : AgentView) :
    (s.withAgentView a).withAgentView b = s.withAgentView b := rfl

theorem land_append (s : State) (as bs : List AgentEvent) : s.land (as ++ bs) = (s.land as).land bs := by
  simp [land_eq]

theorem land_cons (s : State) (e : AgentEvent) (es : List AgentEvent) :
    s.land (e :: es) = (s.land [e]).land es := land_append s [e] es

/-! ## One transaction -/

/-- No transaction raises a counter. -/
theorem apply_dt_le (a : AgentView) (e : AgentEvent) : (a.apply e).dt.toNat ≤ a.dt.toNat := by
  cases e <;> simp only [AgentView.apply, AgentView.shutdown] <;> try exact Nat.le_refl _
  · split
    · simp
    · exact Nat.le_refl _
  · split <;> exact Nat.le_refl _

/-- No transaction raises a counter: ST. -/
theorem apply_st_le (a : AgentView) (e : AgentEvent) : (a.apply e).st.toNat ≤ a.st.toNat := by
  cases e <;> simp only [AgentView.apply, AgentView.shutdown] <;> try exact Nat.le_refl _
  · split <;> exact Nat.le_refl _
  · split
    · simp
    · exact Nat.le_refl _

/-- The clock's control state stays, or becomes stopped (60_exceptions R246). -/
theorem apply_tclkState (a : AgentView) (e : AgentEvent) :
    (a.apply e).tclkState = a.tclkState ∨ (a.apply e).tclkState = .stopped := by
  cases e <;> simp only [AgentView.apply, AgentView.shutdown, true_or, or_true] <;> split <;> exact .inl rfl

/-- A stopped clock stays stopped, and neither counter changes (60_exceptions R245). -/
theorem apply_stopped {a : AgentView} (h : a.tclkState = .stopped) (e : AgentEvent) :
    (a.apply e).tclkState = .stopped ∧ (a.apply e).dt = a.dt ∧ (a.apply e).st = a.st := by
  cases e <;> simp [AgentView.apply, AgentView.shutdown, AgentView.ticking, h]

/-- A clock that nobody pauses or shuts down goes on ticking. -/
theorem apply_ticking {a : AgentView} (h : a.ticking = true) {e : AgentEvent} (h1 : e ≠ .tclkPause)
    (h2 : e ≠ .tclkShutdown) : (a.apply e).ticking = true := by
  cases e <;> simp_all [AgentView.apply, AgentView.ticking]

/-! ## Any number of transactions -/

section
variable {s : State} (evs : List AgentEvent)

theorem foldl_dt_le (a : AgentView) : (evs.foldl AgentView.apply a).dt.toNat ≤ a.dt.toNat := by
  induction evs generalizing a with
  | nil => exact Nat.le_refl _
  | cons e evs ih => exact Nat.le_trans (ih (a.apply e)) (apply_dt_le a e)

theorem land_dt_le : (s.land evs).dt.toNat ≤ s.dt.toNat := foldl_dt_le evs s.agentView

theorem foldl_st_le (a : AgentView) : (evs.foldl AgentView.apply a).st.toNat ≤ a.st.toNat := by
  induction evs generalizing a with
  | nil => exact Nat.le_refl _
  | cons e evs ih => exact Nat.le_trans (ih (a.apply e)) (apply_st_le a e)

theorem land_st_le : (s.land evs).st.toNat ≤ s.st.toNat := foldl_st_le evs s.agentView

/-- Transactions with no pause and no shutdown among them leave a ticking clock ticking. -/
theorem foldl_ticking {a : AgentView} (h : a.ticking = true) (h1 : AgentEvent.tclkPause ∉ evs)
    (h2 : AgentEvent.tclkShutdown ∉ evs) : (evs.foldl AgentView.apply a).ticking = true := by
  induction evs generalizing a with
  | nil => exact h
  | cons e evs ih =>
    simp only [List.mem_cons, not_or] at h1 h2
    exact ih (apply_ticking h (Ne.symm h1.1) (Ne.symm h2.1)) h1.2 h2.2

theorem land_tclkState_cases : (s.land evs).tclkState = s.tclkState ∨ (s.land evs).tclkState = .stopped := by
  suffices h : ∀ a : AgentView, (evs.foldl AgentView.apply a).tclkState = a.tclkState ∨
      (evs.foldl AgentView.apply a).tclkState = .stopped from h s.agentView
  induction evs with
  | nil => exact fun a => .inl rfl
  | cons e evs ih =>
    intro a
    rcases ih (a.apply e) with h | h
    · rcases apply_tclkState a e with h' | h'
      · exact .inl (h.trans h')
      · exact .inr (h.trans h')
    · exact .inr h

theorem land_stopped (h : s.tclkState = .stopped) :
    (s.land evs).tclkState = .stopped ∧ (s.land evs).dt = s.dt ∧ (s.land evs).st = s.st := by
  suffices h : ∀ a : AgentView, a.tclkState = .stopped → (evs.foldl AgentView.apply a).tclkState = .stopped ∧
      (evs.foldl AgentView.apply a).dt = a.dt ∧ (evs.foldl AgentView.apply a).st = a.st from h s.agentView ‹_›
  induction evs with
  | nil => exact fun a h => ⟨h, rfl, rfl⟩
  | cons e evs ih =>
    intro a ha
    obtain ⟨h1, h2, h3⟩ := apply_stopped ha e
    obtain ⟨g1, g2, g3⟩ := ih (a.apply e) h1
    exact ⟨g1, g2.trans h2, g3.trans h3⟩

end

end Sys2Proof.Machine
end

