-- ==== Sys2Proof/Laws/Boot.lean ====
section
/-! SUPPORT. What the host's load does (20_memory R59). -/

namespace Sys2Proof.Machine

variable {s t : State} {bytes : List Byte}

/-- A load that fits answers the state with the bytes in memory. -/
theorem load_fits (h : bytes.length ≤ Config.progMax) :
    s.load bytes = .next { s with mem := Memory.writeBytes s.mem Config.progBase bytes } :=
  if_neg (Nat.not_lt.mpr h)

/-- A load that does not fit fails. -/
theorem load_too_large (h : Config.progMax < bytes.length) : s.load bytes = .fault .programTooLarge := if_pos h

/-- Everything a load that answers a next state has done. -/
theorem load_next (h : s.load bytes = .next t) :
    bytes.length ≤ Config.progMax ∧ t = { s with mem := Memory.writeBytes s.mem Config.progBase bytes } := by
  by_cases hb : bytes.length ≤ Config.progMax
  · rw [load_fits hb] at h
    cases h
    exact ⟨hb, rfl⟩
  · rw [load_too_large (Nat.lt_of_not_le hb)] at h
    cases h

/-- The bytes of a program image that fits lie inside the address space. -/
theorem progBase_add_le (h : bytes.length ≤ Config.progMax) : Config.progBase + bytes.length ≤ Config.memSize := by
  simp only [Config.progMax, Config.progBase, Config.memSize] at *
  omega

end Sys2Proof.Machine
end

