-- ==== Sys2Proof/Laws/Display.lean ====
section
/-! SUPPORT. What drawing does, pixel by pixel (45_display R202, R203). -/

namespace Sys2Proof.Machine

/-! ## One pixel -/

theorem lit_flip (g : Grid) (p q : Pixel) :
    Grid.lit (Grid.flip g p) q = if q = p then !Grid.lit g p else Grid.lit g q := by
  obtain ⟨pc, pr⟩ := p
  obtain ⟨qc, qr⟩ := q
  simp only [Grid.lit, Grid.flip, Fin.getElem_fin, Vector.getElem_set, Prod.mk.injEq, Fin.ext_iff]
  by_cases hr : (pr : Nat) = qr
  · by_cases hc : (pc : Nat) = qc
    · simp [hr, hc]
    · simp [hr, hc, Ne.symm hc]
  · simp [hr, Ne.symm hr]

@[simp] theorem lit_blank (p : Pixel) : Grid.lit Grid.blank p = false := by
  simp [Grid.lit, Grid.blank]

/-- A grid is its pixels. -/
theorem grid_ext {g h : Grid} (e : ∀ p, Grid.lit g p = Grid.lit h p) : g = h := by
  apply Vector.ext
  intro r hr
  apply Vector.ext
  intro c hc
  exact e (⟨c, hc⟩, ⟨r, hr⟩)

/-! ## Flipping a list of pixels without repeats -/

theorem lit_foldl_flip {hits : List Pixel} (hn : hits.Nodup) (g : Grid) (q : Pixel) :
    Grid.lit (hits.foldl Grid.flip g) q = (Grid.lit g q ^^ decide (q ∈ hits)) := by
  induction hits generalizing g with
  | nil => simp
  | cons p hits ih =>
    obtain ⟨hp, hn⟩ := List.nodup_cons.mp hn
    rw [List.foldl_cons, ih hn, lit_flip]
    by_cases h : q = p
    · subst h
      simp [hp]
    · simp [h]

/-! ## Where the bits of a sprite land -/

theorem spritePixel_inj {x8 y8 : Byte} {r c r' c' : Nat} (hr : r < 32) (hc : c < 64) (hr' : r' < 32) (hc' : c' < 64)
    (h : spritePixel x8 y8 r c = spritePixel x8 y8 r' c') : r = r' ∧ c = c' := by
  simp only [spritePixel, Prod.mk.injEq, Fin.ext_iff, Fin.val_ofNat] at h
  omega

theorem mem_rowHits {x8 y8 : Byte} {r : Nat} {row : Byte} {q : Pixel} :
    q ∈ rowHits x8 y8 r row ↔ ∃ c < 8, row.getLsbD (7 - c) = true ∧ q = spritePixel x8 y8 r c := by
  simp only [rowHits, List.mem_map, List.mem_filter, List.mem_range]
  constructor
  · rintro ⟨c, ⟨hc, hb⟩, rfl⟩; exact ⟨c, hc, hb, rfl⟩
  · rintro ⟨c, hc, hb, rfl⟩; exact ⟨c, ⟨hc, hb⟩, rfl⟩

/-- The pixels a sprite hits: one for each 1 bit of each row. -/
theorem mem_spriteHits {x8 y8 : Byte} {rows : List Byte} {r0 : Nat} {q : Pixel} :
    q ∈ spriteHits x8 y8 r0 rows ↔
      ∃ r row, rows[r]? = some row ∧ ∃ c < 8, row.getLsbD (7 - c) = true ∧ q = spritePixel x8 y8 (r0 + r) c := by
  induction rows generalizing r0 with
  | nil => simp [spriteHits]
  | cons row rows ih =>
    rw [spriteHits, List.mem_append, mem_rowHits, ih]
    constructor
    · rintro (h | ⟨r, row', h1, h2⟩)
      · exact ⟨0, row, rfl, h⟩
      · exact ⟨r + 1, row', h1, by rwa [show r0 + (r + 1) = r0 + 1 + r by omega]⟩
    · rintro ⟨r, row', h1, h2⟩
      cases r with
      | zero =>
        simp only [List.getElem?_cons_zero, Option.some.injEq] at h1
        subst h1
        exact .inl h2
      | succ r => exact .inr ⟨r, row', h1, by rwa [show r0 + 1 + r = r0 + (r + 1) by omega]⟩

theorem rowHits_nodup (x8 y8 : Byte) {r : Nat} (hr : r < 32) (row : Byte) : (rowHits x8 y8 r row).Nodup := by
  refine List.Nodup.map_on ?_ (List.Nodup.filter _ List.nodup_range)
  intro c hc d hd h
  have hc := (List.mem_range.mp (List.mem_filter.mp hc).1)
  have hd := (List.mem_range.mp (List.mem_filter.mp hd).1)
  exact (spritePixel_inj hr (by omega) hr (by omega) h).2

/-- No two bits of one draw land on the same pixel (45_display R202). -/
theorem spriteHits_nodup (x8 y8 : Byte) {rows : List Byte} {r0 : Nat} (h : r0 + rows.length ≤ 32) :
    (spriteHits x8 y8 r0 rows).Nodup := by
  induction rows generalizing r0 with
  | nil => exact List.nodup_nil
  | cons row rows ih =>
    simp only [List.length_cons] at h
    refine List.Nodup.append (rowHits_nodup x8 y8 (by omega) row) (ih (by omega)) ?_
    intro q hq hq'
    obtain ⟨c, hc, -, rfl⟩ := mem_rowHits.mp hq
    obtain ⟨r, row', hr, c', hc', -, e⟩ := mem_spriteHits.mp hq'
    have hlen : r < rows.length := (List.getElem?_eq_some_iff.mp hr).1
    have := (spritePixel_inj (by omega) (by omega) (by omega) (by omega) e).1
    omega

/-! ## A draw -/

section
variable (g : Grid) (x8 y8 : Byte) {rows : List Byte}

/-- A pixel is inverted exactly when a 1 bit of the sprite lands on it. -/
theorem lit_draw (h : rows.length ≤ 32) (q : Pixel) :
    Grid.lit (Grid.draw g x8 y8 rows) q = (Grid.lit g q ^^ decide (q ∈ spriteHits x8 y8 0 rows)) :=
  lit_foldl_flip (spriteHits_nodup x8 y8 (by omega)) g q

/-- Drawing the same sprite at the same place twice restores the grid (45_display R203). -/
theorem draw_draw (h : rows.length ≤ 32) : Grid.draw (Grid.draw g x8 y8 rows) x8 y8 rows = g :=
  grid_ext fun q => by rw [lit_draw _ _ _ h, lit_draw _ _ _ h, Bool.xor_assoc, Bool.xor_self, Bool.xor_false]

/-- `draw` reports a collision exactly when some lit pixel becomes unlit (45_display R203). -/
theorem collides_iff (h : rows.length ≤ 32) :
    Grid.collides g x8 y8 rows = true ↔
      ∃ q, Grid.lit g q = true ∧ Grid.lit (Grid.draw g x8 y8 rows) q = false := by
  simp only [Grid.collides, List.any_eq_true]
  constructor
  · rintro ⟨q, hq, hl⟩
    exact ⟨q, hl, by simp [lit_draw _ _ _ h, hl, hq]⟩
  · rintro ⟨q, hl, hd⟩
    rw [lit_draw _ _ _ h, hl] at hd
    exact ⟨q, by simpa using hd, hl⟩

end

end Sys2Proof.Machine
end

