-- ==== Sys2Proof/Laws/PerInstr.lean ====
section
/-! SUPPORT. What holds of every instruction as syntax, one lemma a constructor: the decoder reads the encoder's word
back (30_encoding R72, R73), and the operands are in range (10_state R21). -/

namespace Sys2Proof

/-- The word of an instruction decodes to it, and its operands are in range. -/
def Laws.RoundTrip.Statement (i : Instr) : Prop := decodeWord (encode i) = .ok i ∧ i.wellFormed = true

@[simp] theorem Nibble.isReg_true (x : Nibble) : x.isReg = true := decide_eq_true x.isLt

@[simp] theorem Address.inSpace_true (a : Address) : a.inSpace = true := decide_eq_true a.isLt

theorem Laws.wellFormed_all (i : Instr) : i.wellFormed = true := by cases i <;> simp [Instr.wellFormed]

theorem Laws.RoundTrip.cls : Laws.RoundTrip.Statement .cls :=
  ⟨by decide, Laws.wellFormed_all _⟩

theorem Laws.RoundTrip.ret : Laws.RoundTrip.Statement .ret :=
  ⟨by decide, Laws.wellFormed_all _⟩

theorem Laws.RoundTrip.jp (nnn : Address) : Laws.RoundTrip.Statement (.jp nnn) :=
  ⟨by simp [encode, decodeWord], Laws.wellFormed_all _⟩

theorem Laws.RoundTrip.call (nnn : Address) : Laws.RoundTrip.Statement (.call nnn) :=
  ⟨by simp [encode, decodeWord], Laws.wellFormed_all _⟩

theorem Laws.RoundTrip.seImm (x : Nibble) (kk : Byte) : Laws.RoundTrip.Statement (.seImm x kk) :=
  ⟨by simp [encode, decodeWord], Laws.wellFormed_all _⟩

theorem Laws.RoundTrip.sneImm (x : Nibble) (kk : Byte) : Laws.RoundTrip.Statement (.sneImm x kk) :=
  ⟨by simp [encode, decodeWord], Laws.wellFormed_all _⟩

theorem Laws.RoundTrip.seReg (x : Nibble) (y : Nibble) : Laws.RoundTrip.Statement (.seReg x y) :=
  ⟨by simp [encode, decodeWord], Laws.wellFormed_all _⟩

theorem Laws.RoundTrip.ldImm (x : Nibble) (kk : Byte) : Laws.RoundTrip.Statement (.ldImm x kk) :=
  ⟨by simp [encode, decodeWord], Laws.wellFormed_all _⟩

theorem Laws.RoundTrip.addImm (x : Nibble) (kk : Byte) : Laws.RoundTrip.Statement (.addImm x kk) :=
  ⟨by simp [encode, decodeWord], Laws.wellFormed_all _⟩

theorem Laws.RoundTrip.ldReg (x : Nibble) (y : Nibble) : Laws.RoundTrip.Statement (.ldReg x y) :=
  ⟨by simp [encode, decodeWord, decodeOp8], Laws.wellFormed_all _⟩

theorem Laws.RoundTrip.orReg (x : Nibble) (y : Nibble) : Laws.RoundTrip.Statement (.orReg x y) :=
  ⟨by simp [encode, decodeWord, decodeOp8], Laws.wellFormed_all _⟩

theorem Laws.RoundTrip.andReg (x : Nibble) (y : Nibble) : Laws.RoundTrip.Statement (.andReg x y) :=
  ⟨by simp [encode, decodeWord, decodeOp8], Laws.wellFormed_all _⟩

theorem Laws.RoundTrip.xorReg (x : Nibble) (y : Nibble) : Laws.RoundTrip.Statement (.xorReg x y) :=
  ⟨by simp [encode, decodeWord, decodeOp8], Laws.wellFormed_all _⟩

theorem Laws.RoundTrip.addReg (x : Nibble) (y : Nibble) : Laws.RoundTrip.Statement (.addReg x y) :=
  ⟨by simp [encode, decodeWord, decodeOp8], Laws.wellFormed_all _⟩

theorem Laws.RoundTrip.subReg (x : Nibble) (y : Nibble) : Laws.RoundTrip.Statement (.subReg x y) :=
  ⟨by simp [encode, decodeWord, decodeOp8], Laws.wellFormed_all _⟩

theorem Laws.RoundTrip.shr (x : Nibble) (y : Nibble) : Laws.RoundTrip.Statement (.shr x y) :=
  ⟨by simp [encode, decodeWord, decodeOp8], Laws.wellFormed_all _⟩

theorem Laws.RoundTrip.subnReg (x : Nibble) (y : Nibble) : Laws.RoundTrip.Statement (.subnReg x y) :=
  ⟨by simp [encode, decodeWord, decodeOp8], Laws.wellFormed_all _⟩

theorem Laws.RoundTrip.shl (x : Nibble) (y : Nibble) : Laws.RoundTrip.Statement (.shl x y) :=
  ⟨by simp [encode, decodeWord, decodeOp8], Laws.wellFormed_all _⟩

theorem Laws.RoundTrip.sneReg (x : Nibble) (y : Nibble) : Laws.RoundTrip.Statement (.sneReg x y) :=
  ⟨by simp [encode, decodeWord], Laws.wellFormed_all _⟩

theorem Laws.RoundTrip.ldI (nnn : Address) : Laws.RoundTrip.Statement (.ldI nnn) :=
  ⟨by simp [encode, decodeWord], Laws.wellFormed_all _⟩

theorem Laws.RoundTrip.jpV0 (nnn : Address) : Laws.RoundTrip.Statement (.jpV0 nnn) :=
  ⟨by simp [encode, decodeWord], Laws.wellFormed_all _⟩

theorem Laws.RoundTrip.rnd (x : Nibble) (kk : Byte) : Laws.RoundTrip.Statement (.rnd x kk) :=
  ⟨by simp [encode, decodeWord], Laws.wellFormed_all _⟩

theorem Laws.RoundTrip.drw (x : Nibble) (y : Nibble) (n : Nibble) : Laws.RoundTrip.Statement (.drw x y n) :=
  ⟨by simp [encode, decodeWord], Laws.wellFormed_all _⟩

theorem Laws.RoundTrip.skp (x : Nibble) : Laws.RoundTrip.Statement (.skp x) :=
  ⟨by simp [encode, decodeWord, decodeOpE], Laws.wellFormed_all _⟩

theorem Laws.RoundTrip.sknp (x : Nibble) : Laws.RoundTrip.Statement (.sknp x) :=
  ⟨by simp [encode, decodeWord, decodeOpE], Laws.wellFormed_all _⟩

theorem Laws.RoundTrip.ldVxDT (x : Nibble) : Laws.RoundTrip.Statement (.ldVxDT x) :=
  ⟨by simp [encode, decodeWord, decodeOpF], Laws.wellFormed_all _⟩

theorem Laws.RoundTrip.ldVxK (x : Nibble) : Laws.RoundTrip.Statement (.ldVxK x) :=
  ⟨by simp [encode, decodeWord, decodeOpF], Laws.wellFormed_all _⟩

theorem Laws.RoundTrip.ldDTVx (x : Nibble) : Laws.RoundTrip.Statement (.ldDTVx x) :=
  ⟨by simp [encode, decodeWord, decodeOpF], Laws.wellFormed_all _⟩

theorem Laws.RoundTrip.ldSTVx (x : Nibble) : Laws.RoundTrip.Statement (.ldSTVx x) :=
  ⟨by simp [encode, decodeWord, decodeOpF], Laws.wellFormed_all _⟩

theorem Laws.RoundTrip.addI (x : Nibble) : Laws.RoundTrip.Statement (.addI x) :=
  ⟨by simp [encode, decodeWord, decodeOpF], Laws.wellFormed_all _⟩

theorem Laws.RoundTrip.ldF (x : Nibble) : Laws.RoundTrip.Statement (.ldF x) :=
  ⟨by simp [encode, decodeWord, decodeOpF], Laws.wellFormed_all _⟩

theorem Laws.RoundTrip.ldB (x : Nibble) : Laws.RoundTrip.Statement (.ldB x) :=
  ⟨by simp [encode, decodeWord, decodeOpF], Laws.wellFormed_all _⟩

theorem Laws.RoundTrip.storeRegs (x : Nibble) : Laws.RoundTrip.Statement (.storeRegs x) :=
  ⟨by simp [encode, decodeWord, decodeOpF], Laws.wellFormed_all _⟩

theorem Laws.RoundTrip.loadRegs (x : Nibble) : Laws.RoundTrip.Statement (.loadRegs x) :=
  ⟨by simp [encode, decodeWord, decodeOpF], Laws.wellFormed_all _⟩

end Sys2Proof
end

