-- ==== Sys2Proof/Laws/Step.lean ====
section
/-! SUPPORT. What one step can do, said once: the cases of `executeOne`, of CALL and of RET (30_encoding R70,
42_control_flow R143, R144). -/

namespace Sys2Proof.Machine

variable {s t : State}

theorem executeOne_halted (h : s.coreStatus = .halted) : s.executeOne = .next s := by
  simp [State.executeOne, h]

theorem executeOne_unrecognised (h : s.coreStatus = .running) {e : DecodeError}
    (hd : decodeWord (s.fetch s.pc) = .error e) :
    s.executeOne = .next (s.enterFault .unrecognizedOpcode (s.fetch s.pc) s.pc) := by
  simp [State.executeOne, State.runWord, h, hd]

theorem executeOne_ok (h : s.coreStatus = .running) {i : Instr} (hd : decodeWord (s.fetch s.pc) = .ok i) :
    s.executeOne = exec i s.advancePc := by
  simp [State.executeOne, State.runWord, h, hd]

/-- Everything one `executeOne` can do. -/
theorem executeOne_cases (s : State) :
    (s.coreStatus = .halted ∧ s.executeOne = .next s) ∨
    (s.coreStatus = .running ∧ (∃ e, decodeWord (s.fetch s.pc) = .error e) ∧
      s.executeOne = .next (s.enterFault .unrecognizedOpcode (s.fetch s.pc) s.pc)) ∨
    (s.coreStatus = .running ∧ ∃ i, decodeWord (s.fetch s.pc) = .ok i ∧ s.executeOne = exec i s.advancePc) := by
  cases hc : s.coreStatus with
  | halted => exact .inl ⟨rfl, executeOne_halted hc⟩
  | running =>
    cases hd : decodeWord (s.fetch s.pc) with
    | error e => exact .inr (.inl ⟨rfl, ⟨e, rfl⟩, executeOne_unrecognised hc hd⟩)
    | ok i => exact .inr (.inr ⟨rfl, i, rfl, executeOne_ok hc hd⟩)

/-- A CALL with a free slot pushes the next address and jumps. -/
theorem execCall_push (nnn : Address) (h : s.sp.toNat < Config.stackDepth) :
    execCall nnn s = .next (((s.writeSlot s.sp s.pc).setSp (s.sp + 1#8)).setPc nnn) := by
  have h16 : s.sp ≠ 16#8 := fun e => by rw [e] at h; exact absurd h (by decide)
  rw [execCall, if_neg h16, if_pos h]

/-- A CALL with 16 return addresses on the stack enters the fault. -/
theorem execCall_overflow (nnn : Address) (h : s.sp = 16#8) :
    execCall nnn s = .next (s.enterFault .stackOverflow (encode (.call nnn)) (s.pc - 2#12)) := if_pos h

/-- A RET on a stack that is not empty pops the slot below SP. -/
theorem execRet_slot {a : Address} (h0 : s.sp ≠ 0#8) (ha : s.readSlot (s.sp - 1#8) = some a) :
    execRet s = .next ((s.setSp (s.sp - 1#8)).setPc a) := by
  rw [execRet, if_neg h0, ha]

/-- A RET with 1 to 16 return addresses on the stack pops the last one. -/
theorem execRet_pop (h0 : 0 < s.sp.toNat) (h : s.sp.toNat ≤ Config.stackDepth) :
    ∃ a, s.readSlot (s.sp - 1#8) = some a ∧ (s.sp - 1#8).toNat = s.sp.toNat - 1 ∧
      execRet s = .next ((s.setSp (s.sp - 1#8)).setPc a) := by
  have hne : s.sp ≠ 0#8 := fun e => by rw [e] at h0; exact absurd h0 (by decide)
  have h16 : s.sp.toNat ≤ 16 := h
  have hs : (s.sp - 1#8).toNat = s.sp.toNat - 1 := by
    rw [BitVec.toNat_sub, BitVec.toNat_ofNat]; omega
  have hk : (s.sp - 1#8).toNat < Config.stackDepth := by rw [hs, Config.stackDepth]; omega
  exact ⟨_, readSlot_eq_some s hk, hs, execRet_slot hne (readSlot_eq_some s hk)⟩

/-- A RET on an empty stack enters the fault. -/
theorem execRet_underflow (h : s.sp = 0#8) :
    execRet s = .next (s.enterFault .stackUnderflow (encode .ret) (s.pc - 2#12)) := if_pos h

/-- Everything a CALL that answers a next state can have done. -/
theorem execCall_next {nnn : Address} (h : execCall nnn s = .next t) :
    (s.sp = 16#8 ∧ t = s.enterFault .stackOverflow (encode (.call nnn)) (s.pc - 2#12)) ∨
    (s.sp.toNat < Config.stackDepth ∧ t = ((s.writeSlot s.sp s.pc).setSp (s.sp + 1#8)).setPc nnn) := by
  unfold execCall at h
  split at h
  · next hs => exact .inl ⟨hs, by cases h; rfl⟩
  · split at h
    · next hs => exact .inr ⟨hs, by cases h; rfl⟩
    · cases h

/-- Everything a RET that answers a next state can have done. -/
theorem execRet_next (h : execRet s = .next t) :
    (s.sp = 0#8 ∧ t = s.enterFault .stackUnderflow (encode .ret) (s.pc - 2#12)) ∨
    (s.sp ≠ 0#8 ∧ ∃ a, s.readSlot (s.sp - 1#8) = some a ∧ t = (s.setSp (s.sp - 1#8)).setPc a) := by
  unfold execRet at h
  split at h
  · next hs => exact .inl ⟨hs, by cases h; rfl⟩
  · next hs =>
    split at h
    · next a ha => exact .inr ⟨hs, a, ha, by cases h; rfl⟩
    · cases h

/-! ## Runs of the machine's own step -/

theorem run_succ (M : Host.Core) (k : Nat) (s : M.State) :
    M.run (k + 1) s = match M.step s with
      | .next t => M.run k t
      | .fault f => .fault f
      | .refused r => .refused r := rfl

theorem core_run_next (k : Nat) (h : step s = .next t) :
    Sys2Proof.core.run (k + 1) s = Sys2Proof.core.run k t := by
  refine (run_succ Sys2Proof.core k s).trans ?_
  rw [show Sys2Proof.core.step s = .next t from h]

theorem core_run_fault (k : Nat) {f : Fault} (h : step s = .fault f) :
    Sys2Proof.core.run (k + 1) s = .fault f := by
  refine (run_succ Sys2Proof.core k s).trans ?_
  rw [show Sys2Proof.core.step s = .fault f from h]

theorem core_run_refused (k : Nat) {r : Refusal} (h : step s = .refused r) :
    Sys2Proof.core.run (k + 1) s = .refused r := by
  refine (run_succ Sys2Proof.core k s).trans ?_
  rw [show Sys2Proof.core.step s = .refused r from h]

/-- A run under a schedule, from its first step. -/
theorem runWith_succ (ev : Nat → List AgentEvent) (n : Nat) (s : State) :
    runWith ev (n + 1) s = match s.stepWith (ev 0) with
      | .next t => runWith (fun k => ev (k + 1)) n t
      | .fault f => .fault f
      | .refused r => .refused r := by
  induction n with
  | zero => simp only [runWith]; split <;> simp_all
  | succ n ih =>
    rw [runWith, ih]
    cases s.stepWith (ev 0) <;> simp [runWith]

end Sys2Proof.Machine
end

