-- ==== Sys2Proof/Tests/Slice0.lean ====
section
/-! SUPPORT. Tests of the model against the spec's own words, encodings and vectors (30_encoding R72, R74;
95_test_vectors, whose row a test names), and a witness for the hypotheses of each obligation. -/

open Sys2Proof Sys2Proof.Machine

namespace Tests

/-! ## Helpers -/

/-- Reset, with PC at `pc`, the word `w` there, and nothing of the other agents due before the next step. -/
def start (pc : Address) (w : Word) : State := { (State.reset.setPc pc).putWord pc w with pending := [[]] }

/-- A state in which some registers hold the given values. -/
def withRegs (rs : List (Nibble × Byte)) (s : State) : State := rs.foldl (fun s p => s.setV p.1 p.2) s

/-- Only the key `k` is pressed. -/
def withKey (k : Nibble) (s : State) : State := { s with keys := s.keys.set k.toNat true k.isLt }

/-- The step answers a next state in which `p` holds. -/
def after (s : State) (p : State → Bool) : Bool :=
  match step s with
  | .next t => p t
  | .fault _ => false
  | .refused _ => false

/-- The next state is halted with this fault code at this PC. -/
def haltsWith (s : State) (code : BitVec 4) (pc : Address) : Bool :=
  after s fun t => t.coreStatus == .halted && t.faultCode == code && t.faultPc == pc && t.pc == pc

/-! ## Well-formedness: a word each line of R74 refuses -/

theorem test_refuses_family0 : recognised 0x0123#16 = false ∧ recognised 0x0000#16 = false ∧
    recognised 0x00E0#16 = true ∧ recognised 0x00EE#16 = true := by decide
theorem test_refuses_family5 : recognised 0x5121#16 = false ∧ recognised 0x5120#16 = true := by decide
theorem test_refuses_family8 : recognised 0x8018#16 = false ∧ recognised 0x801F#16 = false ∧
    recognised 0x801E#16 = true := by decide
theorem test_refuses_family9 : recognised 0x912F#16 = false ∧ recognised 0x9120#16 = true := by decide
theorem test_refuses_familyE : recognised 0xE09F#16 = false ∧ recognised 0xE09E#16 = true := by decide
theorem test_refuses_familyF : recognised 0xF0FF#16 = false ∧ recognised 0xF075#16 = false ∧
    recognised 0xF065#16 = true := by decide

/-! ## Decoding: a word of each constructor, from the patterns of R72 -/

theorem test_decode_family0 : decodeWord 0b0000000011100000#16 = .ok .cls ∧
    decodeWord 0b0000000011101110#16 = .ok .ret := by decide
theorem test_decode_jumps : decodeWord 0b0001001000001000#16 = .ok (.jp 0x208#12) ∧
    decodeWord 0b0010001100000001#16 = .ok (.call 0x301#12) ∧
    decodeWord 0b1011001100000010#16 = .ok (.jpV0 0x302#12) := by decide
theorem test_decode_skips : decodeWord 0b0011101100000001#16 = .ok (.seImm 0xB#4 0x01#8) ∧
    decodeWord 0b0100110000000010#16 = .ok (.sneImm 0xC#4 0x02#8) ∧
    decodeWord 0b0101000100100000#16 = .ok (.seReg 0x1#4 0x2#4) ∧
    decodeWord 0b1001001100010000#16 = .ok (.sneReg 0x3#4 0x1#4) := by decide
theorem test_decode_immediates : decodeWord 0b0110101000101111#16 = .ok (.ldImm 0xA#4 0x2F#8) ∧
    decodeWord 0b0111001111111110#16 = .ok (.addImm 0x3#4 0xFE#8) ∧
    decodeWord 0b1010001011110000#16 = .ok (.ldI 0x2F0#12) ∧
    decodeWord 0b1100000100001111#16 = .ok (.rnd 0x1#4 0x0F#8) := by decide
theorem test_decode_family8_low : decodeWord 0b1000001000010000#16 = .ok (.ldReg 0x2#4 0x1#4) ∧
    decodeWord 0b1000001000010001#16 = .ok (.orReg 0x2#4 0x1#4) ∧
    decodeWord 0b1000001000010010#16 = .ok (.andReg 0x2#4 0x1#4) ∧
    decodeWord 0b1000001000010011#16 = .ok (.xorReg 0x2#4 0x1#4) := by decide
theorem test_decode_family8_high : decodeWord 0b1000001000010100#16 = .ok (.addReg 0x2#4 0x1#4) ∧
    decodeWord 0b1000001000010101#16 = .ok (.subReg 0x2#4 0x1#4) ∧
    decodeWord 0b1000001000010110#16 = .ok (.shr 0x2#4 0x1#4) ∧
    decodeWord 0b1000001000010111#16 = .ok (.subnReg 0x2#4 0x1#4) ∧
    decodeWord 0b1000001000011110#16 = .ok (.shl 0x2#4 0x1#4) := by decide
theorem test_decode_draw_and_keys : decodeWord 0b1101000100100101#16 = .ok (.drw 0x1#4 0x2#4 0x5#4) ∧
    decodeWord 0b1110001010011110#16 = .ok (.skp 0x2#4) ∧
    decodeWord 0b1110001110100001#16 = .ok (.sknp 0x3#4) := by decide
theorem test_decode_familyF_timers : decodeWord 0b1111001100000111#16 = .ok (.ldVxDT 0x3#4) ∧
    decodeWord 0b1111010000001010#16 = .ok (.ldVxK 0x4#4) ∧
    decodeWord 0b1111010100010101#16 = .ok (.ldDTVx 0x5#4) ∧
    decodeWord 0b1111011000011000#16 = .ok (.ldSTVx 0x6#4) := by decide
theorem test_decode_familyF_memory : decodeWord 0b1111010000011110#16 = .ok (.addI 0x4#4) ∧
    decodeWord 0b1111000000101001#16 = .ok (.ldF 0x0#4) ∧
    decodeWord 0b1111010100110011#16 = .ok (.ldB 0x5#4) ∧
    decodeWord 0b1111001001010101#16 = .ok (.storeRegs 0x2#4) ∧
    decodeWord 0b1111111101100101#16 = .ok (.loadRegs 0xF#4) := by decide
theorem test_decode_reads_high_byte_first : decode [0x6A#8, 0x2F#8, 0x99#8] = .ok (.ldImm 0xA#4 0x2F#8, [0x99#8]) ∧
    decode [0x6A#8] = .error .truncated ∧
    decode [0x80#8, 0x18#8] = .error (.unrecognizedOpcode 0x8018#16) := by decide
theorem test_encode_words : encode (.ldImm 0xA#4 0x2F#8) = 0x6A2F#16 ∧ encode (.drw 0x1#4 0x2#4 0x5#4) = 0xD125#16 ∧
    encode (.storeRegs 0x2#4) = 0xF255#16 ∧ encode (.jpV0 0x302#12) = 0xB302#16 := by decide
theorem test_table_word : decodeTableWord 16 0x6A2F = some (.ldImm 0xA#4 0x2F#8) ∧
    decodeTableWord 16 0x0000 = none := by decide
theorem test_fetch_word_runs : after ({ State.reset with pending := [[]] }.withFetchWord 16 0x6A2F)
    (fun t => t.getV 0xA#4 == 0x2F#8 && t.pc == 0x202#12) = true := by decide

/-! ## Memory and reset -/

theorem test_reset_memory_wf : Memory.wf State.reset.mem := by decide
theorem test_font_bytes : State.reset.memRead 0x000#12 = 0xF0#8 ∧ State.reset.memRead 0x04F#12 = 0x80#8 ∧
    State.reset.memRead 0x050#12 = 0x00#8 ∧ State.reset.memRead 0x032#12 = 0xF0#8 := by decide
theorem test_fetch_odd_pc : after (start 0x203#12 0x6042#16) (fun t => t.getV 0x0#4 == 0x42#8 && t.pc == 0x205#12) =
    true := by decide -- V6
theorem test_fetch_wraps : after (start 0xFFF#12 0x6042#16) (fun t => t.getV 0x0#4 == 0x42#8 && t.pc == 0x001#12) =
    true := by decide -- V7
theorem test_font_can_be_overwritten : ((State.reset.memWrite 0x000#12 0x42#8).memRead 0x000#12,
    (State.reset.memWrite 0x000#12 0xF0#8).mem) = (0x42#8, []) := by decide

/-! ## One step of each instruction (95_test_vectors) -/

theorem test_unrecognised_halts : haltsWith (start 0x200#12 0x0000#16) 1#4 0x200#12 = true := by decide -- V1
theorem test_ldImm_vf : after (start 0x200#12 0x6F07#16) (fun t => t.getV 0xF#4 == 0x07#8) = true := by decide -- V9
theorem test_addImm_wraps : after (withRegs [(0x3#4, 0xFE#8), (0xF#4, 0x55#8)] (start 0x200#12 0x7303#16))
    (fun t => t.getV 0x3#4 == 0x01#8 && t.getV 0xF#4 == 0x55#8) = true := by decide -- V11
theorem test_ldReg : after (withRegs [(0x1#4, 0x44#8)] (start 0x200#12 0x8010#16))
    (fun t => t.getV 0x0#4 == 0x44#8 && t.getV 0x1#4 == 0x44#8) = true := by decide -- V13
theorem test_orReg_keeps_vf :
    after (withRegs [(0x0#4, 0x0F#8), (0x1#4, 0xF0#8), (0xF#4, 0x77#8)] (start 0x200#12 0x8011#16))
      (fun t => t.getV 0x0#4 == 0xFF#8 && t.getV 0xF#4 == 0x77#8) = true := by decide -- V14
theorem test_andReg : after (withRegs [(0x0#4, 0x3C#8), (0x1#4, 0x0F#8)] (start 0x200#12 0x8012#16))
    (fun t => t.getV 0x0#4 == 0x0C#8) = true := by decide -- V15
theorem test_xorReg : after (withRegs [(0x0#4, 0x3C#8), (0x1#4, 0x0F#8)] (start 0x200#12 0x8013#16))
    (fun t => t.getV 0x0#4 == 0x33#8) = true := by decide -- V16
theorem test_addReg_carry : after (withRegs [(0x0#4, 0xFF#8), (0x1#4, 0x01#8)] (start 0x200#12 0x8014#16))
    (fun t => t.getV 0x0#4 == 0x00#8 && t.getV 0xF#4 == 0x01#8) = true := by decide -- S1, V18
theorem test_addReg_into_vf : after (withRegs [(0xF#4, 0xFF#8), (0x1#4, 0x02#8)] (start 0x200#12 0x8F14#16))
    (fun t => t.getV 0xF#4 == 0x01#8) = true := by decide -- V21
theorem test_subReg_borrow : after (withRegs [(0x0#4, 0x05#8), (0x1#4, 0x0A#8)] (start 0x200#12 0x8015#16))
    (fun t => t.getV 0x0#4 == 0xFB#8 && t.getV 0xF#4 == 0x00#8) = true := by decide -- S2, V23
theorem test_subReg_equal : after (withRegs [(0x0#4, 0x33#8), (0x1#4, 0x33#8)] (start 0x200#12 0x8015#16))
    (fun t => t.getV 0x0#4 == 0x00#8 && t.getV 0xF#4 == 0x01#8) = true := by decide -- V25
theorem test_shr_ignores_vy : after (withRegs [(0x2#4, 0x04#8), (0x3#4, 0xFF#8)] (start 0x200#12 0x8236#16))
    (fun t => t.getV 0x2#4 == 0x02#8 && t.getV 0x3#4 == 0xFF#8 && t.getV 0xF#4 == 0x00#8) = true := by decide -- V28
theorem test_shr_into_vf : after (withRegs [(0xF#4, 0x03#8)] (start 0x200#12 0x8F06#16))
    (fun t => t.getV 0xF#4 == 0x01#8) = true := by decide -- V30
theorem test_subnReg : after (withRegs [(0x0#4, 0x05#8), (0x1#4, 0x0A#8)] (start 0x200#12 0x8017#16))
    (fun t => t.getV 0x0#4 == 0x05#8 && t.getV 0xF#4 == 0x01#8) = true := by decide -- S3, V31
theorem test_subnReg_borrow : after (withRegs [(0x0#4, 0x0A#8), (0x1#4, 0x05#8)] (start 0x200#12 0x8017#16))
    (fun t => t.getV 0x0#4 == 0xFB#8 && t.getV 0xF#4 == 0x00#8) = true := by decide -- V32
theorem test_shl_bit7 : after (withRegs [(0x2#4, 0x81#8)] (start 0x200#12 0x820E#16))
    (fun t => t.getV 0x2#4 == 0x02#8 && t.getV 0xF#4 == 0x01#8) = true := by decide -- V34
theorem test_shl_into_vf : after (withRegs [(0xF#4, 0x80#8)] (start 0x200#12 0x8F0E#16))
    (fun t => t.getV 0xF#4 == 0x01#8) = true := by decide -- V37
/-- V39: with mask 0 the draw does not matter; a draw is taken all the same. -/
theorem test_rnd_mask_zero : ∃ t, step (withRegs [(0x1#4, 0x77#8)] (start 0x200#12 0xC100#16)) = .next t ∧
    t.getV 0x1#4 = 0x00#8 ∧ t.draws = 1 := by
  have h := executeOne_ok (s := (withRegs [(0x1#4, 0x77#8)] (start 0x200#12 0xC100#16)).arrived)
    (i := .rnd 0x1#4 0x00#8) rfl (by decide)
  refine ⟨_, h, ?_, rfl⟩
  exact (getV_setV _ _ _ _).trans (by rw [if_pos rfl]; exact BitVec.and_zero)
theorem test_jp_odd : after (start 0x200#12 0x1333#16) (fun t => t.pc == 0x333#12) = true := by decide -- V42
theorem test_call_saves_000 : after (start 0xFFE#12 0x2300#16)
    (fun t => t.pc == 0x300#12 && t.sp == 1#8 && t.readSlot 0#8 == some 0x000#12) = true := by decide -- V44
theorem test_call_full_faults : haltsWith ((start 0x204#12 0x2300#16).setSp 16#8) 2#4 0x204#12 = true := by
  decide -- V45
theorem test_ret : after (((start 0x200#12 0x00EE#16).setSp 1#8).writeSlot 0#8 0x206#12)
    (fun t => t.pc == 0x206#12 && t.sp == 0#8) = true := by decide -- V46
theorem test_ret_empty_faults : haltsWith (start 0x200#12 0x00EE#16) 3#4 0x200#12 = true := by decide -- V47
theorem test_seImm_skip_wraps : after (start 0xFFC#12 0x3000#16) (fun t => t.pc == 0x000#12) = true := by decide -- V50
theorem test_seImm_not_taken : after (start 0x200#12 0x3001#16) (fun t => t.pc == 0x202#12) = true := by decide -- V49
theorem test_sneImm_taken : after (withRegs [(0x0#4, 0x05#8)] (start 0x200#12 0x4006#16))
    (fun t => t.pc == 0x204#12) = true := by decide -- V52
theorem test_sneImm_not_taken : after (withRegs [(0x0#4, 0x05#8)] (start 0x200#12 0x4005#16))
    (fun t => t.pc == 0x202#12) = true := by decide -- V51
theorem test_seReg_taken : after (withRegs [(0x1#4, 0x7F#8), (0x2#4, 0x7F#8)] (start 0x200#12 0x5120#16))
    (fun t => t.pc == 0x204#12) = true := by decide -- V53
theorem test_seReg_not_taken : after (withRegs [(0x1#4, 0x7F#8), (0x2#4, 0x7E#8)] (start 0x200#12 0x5120#16))
    (fun t => t.pc == 0x202#12) = true := by decide -- V54
theorem test_sneReg_taken : after (withRegs [(0x1#4, 0x01#8), (0x2#4, 0x02#8)] (start 0x200#12 0x9120#16))
    (fun t => t.pc == 0x204#12) = true := by decide -- V57
theorem test_sneReg_self_never : after (withRegs [(0x1#4, 0x01#8)] (start 0x200#12 0x9110#16))
    (fun t => t.pc == 0x202#12) = true := by decide -- V58
theorem test_jpV0_wraps : after (withRegs [(0x0#4, 0x02#8)] (start 0x200#12 0xBFFF#16))
    (fun t => t.pc == 0x001#12) = true := by decide -- V61
theorem test_jpV0_uses_v0 : after (withRegs [(0x3#4, 0xFF#8)] (start 0x200#12 0xB300#16))
    (fun t => t.pc == 0x300#12) = true := by decide -- V62
theorem test_ldI : after (start 0x200#12 0xA2F0#16) (fun t => t.i == 0x2F0#12) = true := by decide -- V63
theorem test_addI_wraps : after (withRegs [(0x4#4, 0x01#8), (0xF#4, 0x09#8)] ((start 0x200#12 0xF41E#16).setI 0xFFF#12))
    (fun t => t.i == 0x000#12 && t.getV 0xF#4 == 0x09#8) = true := by decide -- V65
theorem test_ldF_digit : after (withRegs [(0x0#4, 0x0A#8)] (start 0x200#12 0xF029#16)) (fun t => t.i == 0x032#12) =
    true := by decide -- S11, V66
theorem test_ldF_unmasked : after (withRegs [(0x0#4, 0xFF#8)] (start 0x200#12 0xF029#16)) (fun t => t.i == 0x4FB#12) =
    true := by decide -- V68
theorem test_ldB_255 : after (withRegs [(0x5#4, 0xFF#8)] ((start 0x200#12 0xF533#16).setI 0x300#12))
    (fun t => t.memRead 0x300#12 == 2#8 && t.memRead 0x301#12 == 5#8 && t.memRead 0x302#12 == 5#8) = true := by
  decide -- V70
theorem test_ldB_wraps : after (withRegs [(0x5#4, 0x7B#8)] ((start 0x200#12 0xF533#16).setI 0xFFF#12))
    (fun t => t.memRead 0xFFF#12 == 1#8 && t.memRead 0x000#12 == 2#8 && t.memRead 0x001#12 == 3#8 &&
      t.i == 0xFFF#12) = true := by decide -- V72
theorem test_storeRegs_x0 :
    after (withRegs [(0x0#4, 0x11#8), (0x1#4, 0x22#8)] ((start 0x200#12 0xF055#16).setI 0x400#12))
      (fun t => t.memRead 0x400#12 == 0x11#8 && t.memRead 0x401#12 == 0x00#8 && t.i == 0x401#12) = true := by
  decide -- V74
theorem test_storeRegs_wraps :
    after (withRegs [(0x0#4, 0xAA#8), (0x1#4, 0xBB#8)] ((start 0x200#12 0xF155#16).setI 0xFFF#12))
      (fun t => t.memRead 0xFFF#12 == 0xAA#8 && t.memRead 0x000#12 == 0xBB#8 && t.i == 0x001#12) = true := by
  decide -- V75
theorem test_loadRegs :
    after ((((start 0x200#12 0xF265#16).setI 0x400#12).memWrite 0x400#12 0x11#8).memWrite 0x402#12 0x33#8)
      (fun t => t.getV 0x0#4 == 0x11#8 && t.getV 0x2#4 == 0x33#8 && t.i == 0x403#12) = true := by decide -- V76
theorem test_loadRegs_vf : after (((start 0x200#12 0xFF65#16).setI 0x400#12).memWrite 0x40F#12 0x5C#8)
    (fun t => t.getV 0xF#4 == 0x5C#8 && t.i == 0x410#12) = true := by decide -- V77
theorem test_ldVxDT : after ((start 0x200#12 0xF307#16).timerLoad .DT 0x3C#8) (fun t => t.getV 0x3#4 == 0x3C#8) =
    true := by decide -- V78
theorem test_ldVxDT_after_tick :
    after { (start 0x200#12 0xF107#16).timerLoad .DT 0x05#8 with pending := [[.tickDT]] }
      (fun t => t.getV 0x1#4 == 0x04#8) = true := by decide -- T9
theorem test_ldDTVx_after_tick :
    after { withRegs [(0x0#4, 0x0A#8)] ((start 0x200#12 0xF015#16).timerLoad .DT 0x05#8) with pending := [[.tickDT]] }
      (fun t => t.dt == 0x0A#8) = true := by decide -- T5
theorem test_ldSTVx : after (withRegs [(0x1#4, 0x02#8)] (start 0x200#12 0xF118#16)) (fun t => t.st == 0x02#8 && t.tone) =
    true := by decide -- V80
theorem test_cls : after ((start 0x200#12 0x00E0#16).setDisplay (Grid.flip Grid.blank (63, 31)))
    (fun t => !Grid.lit t.display (63, 31)) = true := by decide -- G3
theorem test_drw_wraps :
    after (withRegs [(0x0#4, 0x3F#8)] (((start 0x200#12 0xD011#16).setI 0x300#12).memWrite 0x300#12 0xC0#8))
      (fun t => Grid.lit t.display (63, 0) && Grid.lit t.display (0, 0) && !Grid.lit t.display (1, 0) &&
        t.getV 0xF#4 == 0x00#8) = true := by decide -- G5
theorem test_drw_collides :
    after (withRegs [(0x0#4, 0xFF#8), (0x1#4, 0x20#8)]
        ((((start 0x200#12 0xD011#16).setI 0x300#12).memWrite 0x300#12 0x80#8).setDisplay
          (Grid.flip Grid.blank (63, 0))))
      (fun t => !Grid.lit t.display (63, 0) && t.getV 0xF#4 == 0x01#8) = true := by decide -- G6, R203
theorem test_skp_masked : after (withKey 0x5#4 (withRegs [(0x2#4, 0x15#8)] (start 0x200#12 0xE29E#16)))
    (fun t => t.pc == 0x204#12) = true := by decide -- V85
theorem test_skp_not_pressed : after (withRegs [(0x2#4, 0x05#8)] (start 0x200#12 0xE29E#16))
    (fun t => t.pc == 0x202#12) = true := by decide -- V84
theorem test_sknp_not_pressed : after (withRegs [(0x2#4, 0x05#8)] (start 0x200#12 0xE2A1#16))
    (fun t => t.pc == 0x204#12) = true := by decide -- V86
theorem test_sknp_pressed : after (withKey 0x5#4 (withRegs [(0x2#4, 0x05#8)] (start 0x200#12 0xE2A1#16)))
    (fun t => t.pc == 0x202#12) = true := by decide -- V87
theorem test_ldVxK_lowest : after (withKey 0x9#4 (withKey 0x3#4 (start 0x200#12 0xF30A#16)))
    (fun t => t.getV 0x3#4 == 0x03#8 && t.pc == 0x202#12) = true := by decide -- V90
theorem test_ldVxK_none_at_zero : after (start 0x000#12 0xF30A#16)
    (fun t => t.pc == 0x000#12 && t.getV 0x3#4 == 0x00#8) = true := by decide -- V91

/-! ## The other agents -/

theorem test_ticks : ((State.reset.timerLoad .DT 0x0A#8).land (List.replicate 11 .tickDT)).dt = 0x00#8 ∧
    ((State.reset.timerLoad .ST 0x03#8).land [.tickST, .tickST]).st = 0x01#8 := by decide -- S6, T2
theorem test_pause : ((State.reset.timerLoad .DT 0x05#8).land
    [.tclkPause, .tickDT, .tickDT, .tclkResume, .tickDT]).dt = 0x04#8 := by decide -- T6
theorem test_shutdown : ((State.reset.timerLoad .DT 0x05#8).land [.tclkShutdown, .tclkShutdown, .tickDT]).dt = 0x05#8 :=
  by decide -- T7
theorem test_halted_ticks :
    after { State.reset.timerLoad .DT 0x05#8 with coreStatus := .halted, pending := [[.tickDT]] }
      (fun t => t.dt == 0x04#8 && t.coreStatus == .halted) = true := by decide -- T10
theorem test_load_too_large : State.reset.load (List.replicate 3585 0x00#8) = .fault .programTooLarge := by
  rw [State.load, List.length_replicate]; rfl -- S12

/-! ## A witness for the hypotheses of each obligation -/

/-- A jump to itself at 0x200, nothing due. -/
def spin : State := start 0x200#12 0x1200#16

theorem witness_OnlyItsOwnWord : decodeWord 0x6A2F#16 = .ok (.ldImm 0xA#4 0x2F#8) := by decide
theorem witness_Unrecognised : recognised 0x00E0#16 = true ∧ recognised 0xFFFF#16 = false := by decide
theorem witness_wf_and_address : Memory.wf spin.mem := by decide
theorem witness_StepRuns : spin.coreStatus = .running ∧
    decode [spin.memRead spin.pc, spin.memRead (spin.pc + 1#12)] = .ok (.jp 0x200#12, []) := by decide
theorem witness_UnrecognisedWordHalts :
    (start 0xFFF#12 0xF0FF#16).coreStatus = .running ∧
      recognised ((start 0xFFF#12 0xF0FF#16).fetch (start 0xFFF#12 0xF0FF#16).pc) = false := by decide
theorem witness_FaultEntry_unrecognised : ∃ t, (start 0x200#12 0x8018#16).coreStatus = .running ∧
    (start 0x200#12 0x8018#16).executeOne = .next t ∧ t.coreStatus = .halted ∧ t.faultCode = 1#4 := ⟨_, rfl, rfl, rfl, rfl⟩
theorem witness_FaultEntry_overflow : ∃ t, ((start 0x200#12 0x2300#16).setSp 16#8).coreStatus = .running ∧
    ((start 0x200#12 0x2300#16).setSp 16#8).executeOne = .next t ∧ t.coreStatus = .halted ∧ t.faultCode = 2#4 :=
  ⟨_, rfl, rfl, rfl, rfl⟩
theorem witness_FaultEntry_underflow : ∃ t, (start 0x200#12 0x00EE#16).coreStatus = .running ∧
    (start 0x200#12 0x00EE#16).executeOne = .next t ∧ t.coreStatus = .halted ∧ t.faultCode = 3#4 := ⟨_, rfl, rfl, rfl, rfl⟩
theorem witness_CompareSkips : (0x1#4 : Nibble) ≠ 0x0#4 ∧ (0xF#4 : Nibble) ≠ 0x0#4 := by decide
theorem witness_HaltedEngine : ({ spin with coreStatus := .halted } : State).coreStatus = .halted ∧
    ({ spin with coreStatus := .halted } : State).tclkState = .running ∧
    ({ spin with coreStatus := .halted } : State).tclkPaused = false := by decide
theorem witness_OnlyCallAndRet : (∀ nnn, Instr.cls ≠ .call nnn) ∧ Instr.cls ≠ .ret := ⟨nofun, nofun⟩
theorem witness_vf_or_not : (0xE#4 : Nibble) ≠ 0xF#4 ∧ (0x0#4 : Nibble) ≠ 0xE#4 ∧ (0x0#4 : Nibble) ≠ 0xF#4 := by decide
theorem witness_RandomByte : (0x0F#8 : Byte).getLsbD 4 = false ∧ (0x0F#8 : Byte).getLsbD 8 = false := by decide
theorem witness_Call : (spin.setSp 15#8).sp.toNat < 16 ∧ spin.sp.toNat < 16 ∧ (spin.setSp 16#8).sp = 16#8 := by decide
theorem witness_Ret : (0 < (spin.setSp 1#8).sp.toNat ∧ (spin.setSp 1#8).sp.toNat ≤ 16) ∧
    (0 < (spin.setSp 16#8).sp.toNat ∧ (spin.setSp 16#8).sp.toNat ≤ 16) ∧ spin.sp = 0#8 := by decide
theorem witness_NoSlot : 16 < (spin.setSp 17#8).sp.toNat := by decide
theorem witness_StoreRange : Memory.wf spin.mem ∧ (0xF#4 : Nibble).toNat ≤ (0xF#4 : Nibble).toNat ∧
    ∀ r : Nibble, r.toNat ≤ (0xF#4 : Nibble).toNat → (0x010#12 : Address) ≠ spin.i + BitVec.ofNat 12 r.toNat := by decide
theorem witness_StoredBytes : ∃ t, Memory.wf spin.mem ∧ (0xE#4 : Nibble).toNat < (0xF#4 : Nibble).toNat ∧
    exec (.storeRegs 0xF#4) spin = .next t := ⟨_, by decide, by decide, rfl⟩
theorem witness_Draw_pixels : (14 < (0xF#4 : Nibble).toNat ∧ 7 < 8 ∧
      ((6, 13) : Pixel).1.val = (((withRegs [(0x0#4, 0xFF#8), (0x1#4, 0xFF#8)] spin).getV 0x0#4).toNat + 7) % 64 ∧
      ((6, 13) : Pixel).2.val = (((withRegs [(0x0#4, 0xFF#8), (0x1#4, 0xFF#8)] spin).getV 0x1#4).toNat + 14) % 32) ∧
    ∀ r c : Nat, r < (0xF#4 : Nibble).toNat → c < 8 →
      ¬(((8, 0) : Pixel).1.val = ((spin.getV 0x0#4).toNat + c) % 64 ∧
        ((8, 0) : Pixel).2.val = ((spin.getV 0x1#4).toNat + r) % 32) :=
  ⟨by decide, fun r c _ hc h => by
    have h1 : (8 : Nat) = (0 + c) % 64 := h.1
    omega⟩
theorem witness_Draw_collision : ∃ t, exec (.drw 0x0#4 0x1#4 0x1#4) (spin.setDisplay (Grid.flip Grid.blank (0, 0))) =
      .next t ∧ Grid.lit (spin.setDisplay (Grid.flip Grid.blank (0, 0))).display (0, 0) = true ∧
      Grid.lit t.display (0, 0) = false := ⟨_, rfl, by decide, by decide⟩
theorem witness_Draw_no_collision : ∃ t, exec (.drw 0x0#4 0x1#4 0x0#4) spin = .next t ∧
    ∀ p, Grid.lit spin.display p = true → Grid.lit t.display p = true := ⟨_, rfl, fun _ h => h⟩
theorem witness_DrawTwice : (0xE#4 : Nibble) ≠ 0xF#4 ∧ (0x0#4 : Nibble) ≠ 0xF#4 := by decide
theorem witness_KeySkips : (0xF#4 : Nibble).toNat = ((withRegs [(0x2#4, 0xFF#8)] spin).getV 0x2#4).toNat % 16 := by decide
theorem witness_WaitKey : (∀ k, spin.keyPressed k = false) ∧
    ((withKey 0xF#4 spin).keyPressed 0xF#4 = true ∧
      ∀ j : Nibble, j.toNat < (0xF#4 : Nibble).toNat → (withKey 0xF#4 spin).keyPressed j = false) ∧
    (withKey 0x0#4 spin).keyPressed 0x0#4 = true := by decide
theorem witness_WaitKeyStep : (start 0x000#12 0xF30A#16).coreStatus = .running ∧
    decodeWord ((start 0x000#12 0xF30A#16).fetch (start 0x000#12 0xF30A#16).pc) = .ok (.ldVxK 0x3#4) ∧
    ∀ k, (start 0x000#12 0xF30A#16).arrived.keyPressed k = false := by decide
theorem witness_Tick : (spin.tclkState = .running ∧ spin.tclkPaused = false) ∧
    ¬((spin.land [.tclkPause]).tclkState = .running ∧ (spin.land [.tclkPause]).tclkPaused = false) ∧
    ¬((spin.land [.tclkShutdown]).tclkState = .running ∧ (spin.land [.tclkShutdown]).tclkPaused = false) := by decide
theorem witness_PausedTicks : (∀ e ∈ ([.tickDT, .tickST] : List AgentEvent), e = .tickDT ∨ e = .tickST) ∧
    spin.tclkState = .running := by decide
theorem witness_Shutdown : (spin.land [.tclkShutdown]).tclkState = .stopped := by decide
theorem witness_ClockState : (∃ t, step (spin.land [.tclkShutdown]) = .next t) ∧
    (spin.land [.tclkShutdown]).tclkState = .stopped ∧ (∃ t, exec .cls spin = .next t) ∧
    State.constructed.tclkState = .created ∧ spin.tclkState ≠ .created :=
  ⟨⟨_, rfl⟩, by decide, ⟨_, rfl⟩, by decide, by decide⟩
theorem witness_DelayTimerRises : ∃ t, step spin = .next t ∧ ∀ x, spin.nextInstr ≠ some (.ldDTVx x) :=
  ⟨_, rfl, by decide⟩
theorem witness_Tone : spin.tclkState = .running ∧ spin.tclkPaused = false ∧ (spin.timerLoad .ST 1#8).st = 1#8 := by
  decide
theorem witness_SetPressed : ∃ t, exec .cls spin = .next t := ⟨_, rfl⟩
theorem witness_Load : (List.replicate 3584 0x12#8).length ≤ 3584 ∧ 3584 < (List.replicate 3585 0x12#8).length ∧
    (List.replicate 3584 0x12#8)[3583]? = some 0x12#8 ∧ Memory.wf spin.mem :=
  ⟨by rw [List.length_replicate], by rw [List.length_replicate]; decide, by rw [List.getElem?_replicate]; rfl,
    by decide⟩
theorem witness_ResetValues : (15#8 : Byte).toNat < 16 ∧ 80 ≤ (80#12 : Address).toNat ∧
    ([[0xF0, 0x80, 0xF0, 0x80, 0x80]] : List (List Byte))[0]? = some [0xF0, 0x80, 0xF0, 0x80, 0x80] ∧
    ([0xF0, 0x80, 0xF0, 0x80, 0x80] : List Byte)[4]? = some 0x80#8 := by decide
theorem witness_Invariant_running : ∃ t, spin.Inv ∧ step spin = .next t := ⟨_, by decide, rfl⟩
theorem witness_Invariant_halted : ∃ t, step (start 0x200#12 0x8018#16) = .next t ∧ t.coreStatus = .halted ∧ t.Inv ∧
    ∃ u, step t = .next u := ⟨_, rfl, rfl, by decide, _, rfl⟩
theorem witness_Writes : ∃ t, exec (.storeRegs 0xF#4) spin = .next t := ⟨_, rfl⟩
theorem witness_Registers : ∃ t, exec (.addReg 0x1#4 0x2#4) spin = .next t ∧
    (Instr.addReg 0x1#4 0x2#4).writesReg 0x2#4 = false ∧ (Instr.addReg 0x1#4 0x2#4).readsReg 0xF#4 = false ∧
    (Instr.addReg 0x1#4 0x2#4).readsReg 0x3#4 = false := ⟨_, rfl, by decide⟩
theorem witness_NoST : ∃ t, exec (.ldSTVx 0x1#4) spin = .next t := ⟨_, rfl⟩
theorem witness_SelfJump : spin.atSelfJump = true := by decide

theorem witness_Boot : [0x12#8, 0x00#8].length ≤ 3584 ∧ Memory.wf State.reset.mem := by decide
theorem witness_RetComesBack : spin.sp.toNat < 16 ∧ (0x1#8 : Byte) ≠ spin.sp := by decide

/-- The two counters loaded at the jump to itself. -/
def spinTimed : State := (spin.timerLoad .DT 5#8).timerLoad .ST 3#8

/-- Every step from `spinTimed` under one tick of each counter a step stays at the jump. -/
theorem spin_run (n : Nat) : ∃ t, runWith (fun _ => [.tickDT, .tickST]) n spinTimed = .next t ∧
    t.coreStatus = .running ∧ t.pc = 0x200#12 ∧ t.mem = spin.mem := by
  induction n with
  | zero => exact ⟨_, rfl, rfl, rfl, rfl⟩
  | succ n ih =>
    obtain ⟨t, h, hc, hp, hm⟩ := ih
    have hf : (t.takeSlot.land [.tickDT, .tickST]).fetch (t.takeSlot.land [.tickDT, .tickST]).pc = 0x1200#16 := by
      have hf' : t.fetch t.pc = spin.fetch spin.pc := by simp only [State.fetch, State.memRead, hp, hm]; rfl
      exact hf'.trans (by decide)
    have he := executeOne_ok (s := t.takeSlot.land [.tickDT, .tickST]) (i := .jp 0x200#12) hc (by rw [hf]; decide)
    exact ⟨(t.takeSlot.land [.tickDT, .tickST]).advancePc.setPc 0x200#12, by rw [runWith, h]; exact he, hc, rfl, hm⟩

/-- For each of the two counters. -/
theorem witness_FairClock (T : TimerId) : spinTimed.Inv ∧ FairTicks T (fun _ => [.tickDT, .tickST]) spinTimed ∧
    ClockLeftOn (fun _ => [.tickDT, .tickST]) ∧ spinTimed.ClockOn ∧ spinTimed.timerGet T ≠ 0#8 ∧
    ∀ n t, runWith (fun _ => [.tickDT, .tickST]) n spinTimed = .next t → ∀ x, t.nextInstr ≠ some (T.loadInstr x) := by
  refine ⟨by decide, fun k _ => ⟨k, Nat.le_refl k, by cases T <;> simp [TimerId.tick]⟩,
    fun _ => ⟨by simp, by simp⟩, by decide, by cases T <;> decide, fun n t h x => ?_⟩
  obtain ⟨u, hu, hc, hp, hm⟩ := spin_run n
  rw [h] at hu
  cases hu
  have hf : t.fetch t.pc = 0x1200#16 := by
    have hf' : t.fetch t.pc = spin.fetch spin.pc := by simp only [State.fetch, State.memRead, hp, hm]; rfl
    exact hf'.trans (by decide)
  rw [State.nextInstr, hc, hf]
  cases T <;> (simp only [TimerId.loadInstr]; decide +revert)

end Tests
end

section
/-! SUPPORT. Frames: they compose, one an operation, and one an instruction (10_state R23 to R33). -/

namespace Sys2Proof.Machine

section
variable {s t u : State} {ws vs : List Part}

@[simp] theorem Part.same_refl (p : Part) (s : State) : p.same s s := by cases p <;> simp [Part.same]

theorem Part.same_trans {p : Part} (h : p.same s t) (h' : p.same t u) : p.same s u := by
  cases p <;> simp_all [Part.same]

theorem Frame.refl (ws : List Part) (s : State) : Frame ws s s := fun p _ => p.same_refl s

theorem Frame.mono (h : Frame ws s t) (hs : ws ⊆ vs) : Frame vs s t := fun p hp => h p fun hw => hp (hs hw)

/-- One update after another writes the parts of both. -/
theorem Frame.trans (h : Frame ws s t) (h' : Frame vs t u) : Frame (ws ++ vs) s u := fun p hp =>
  have ⟨hw, hv⟩ := not_or.mp (mt List.mem_append.mpr hp)
  Part.same_trans (h p hw) (h' p hv)

end

/-! ## One frame an operation -/

section
variable (s : State)

theorem frame_setV (x : Nibble) (b : Byte) : Frame [.v] s (s.setV x b) := by
  intro p hp; cases p <;> simp_all [Part.same]

theorem frame_setI (a : Address) : Frame [.i] s (s.setI a) := by
  intro p hp; cases p <;> simp_all [Part.same]

theorem frame_setPc (a : Address) : Frame [.pc] s (s.setPc a) := by
  intro p hp; cases p <;> simp_all [Part.same]

theorem frame_setSp (b : Byte) : Frame [.sp] s (s.setSp b) := by
  intro p hp; cases p <;> simp_all [Part.same]

theorem frame_writeSlot (k : Byte) (a : Address) : Frame [.stack] s (s.writeSlot k a) := by
  intro p hp; cases p <;> simp_all [Part.same]

theorem frame_memWrite (a : Address) (w : Byte) : Frame [.mem] s (s.memWrite a w) := by
  intro p hp; cases p <;> simp_all [Part.same]

theorem frame_loadDT (b : Byte) : Frame [.dt] s (s.timerLoad .DT b) := by
  intro p hp; cases p <;> simp_all [Part.same]

theorem frame_loadST (b : Byte) : Frame [.st] s (s.timerLoad .ST b) := by
  intro p hp; cases p <;> simp_all [Part.same]

theorem frame_rngDrawn : Frame [.draws] s s.rngDrawn := by
  intro p hp; cases p <;> simp_all [Part.same]

theorem frame_setDisplay (g : Grid) : Frame [.display] s (s.setDisplay g) := by
  intro p hp; cases p <;> simp_all [Part.same]

theorem frame_enterFault (f : FaultCondition) (w : Word) (a : Address) :
    Frame [.core, .pc] s (s.enterFault f w a) := by
  intro p hp; cases p <;> simp_all [Part.same]

theorem frame_skipIf (c : Bool) : Frame [.pc] s (s.skipIf c) := by
  rw [skipIf_eq]; exact frame_setPc s _

theorem frame_setResultAndFlag (x : Nibble) (r : Byte) (c : Bool) : Frame [.v] s (s.setResultAndFlag x r c) :=
  ((frame_setV s x r).trans (frame_setV _ _ _)).mono (by simp)

theorem frame_loadRange (a : Address) (n : Nat) : Frame [.v] s (s.loadRange a n) := by
  intro p hp; cases p <;> simp_all [Part.same]

theorem frame_storeRange (a : Address) (n : Nat) : Frame [.mem] s (s.storeRange a n) := by
  intro p hp; cases p <;> simp_all [Part.same]

theorem frame_waitKey (x : Nibble) (k : Option Nibble) : Frame [.v, .pc] s (s.waitKey x k) := by
  cases k with
  | none => exact (frame_setPc s _).mono (by simp)
  | some k => exact (frame_setV s x _).mono (by simp)

end

variable {s t : State}

/-- What an instruction that answers a next state leaves as it was. -/
theorem exec_frame {i : Instr} (h : exec i s = .next t) : Frame i.writes s t := by
  cases i with
  | cls => cases h; exact frame_setDisplay s _
  | ret =>
    obtain ⟨-, rfl⟩ | ⟨-, a, -, rfl⟩ := execRet_next h
    · exact (frame_enterFault s _ _ _).mono (by simp [Instr.writes])
    · exact ((frame_setSp s _).trans (frame_setPc _ a)).mono (by simp [Instr.writes])
  | call nnn =>
    obtain ⟨-, rfl⟩ | ⟨-, rfl⟩ := execCall_next h
    · exact (frame_enterFault s _ _ _).mono (by simp [Instr.writes])
    · exact (((frame_writeSlot s _ _).trans (frame_setSp _ _)).trans (frame_setPc _ nnn)).mono (by simp [Instr.writes])
  | jp nnn | jpV0 nnn => cases h; exact frame_setPc s _
  | seImm x _ | sneImm x _ | seReg x _ | sneReg x _ | skp x | sknp x => cases h; exact frame_skipIf s _
  | ldImm x _ | addImm x _ | ldReg x _ | orReg x _ | andReg x _ | xorReg x _ | ldVxDT x =>
    cases h; exact frame_setV s x _
  | addReg x _ | subReg x _ | shr x _ | subnReg x _ | shl x _ => cases h; exact frame_setResultAndFlag s x _ _
  | rnd x kk => cases h; exact ((frame_rngDrawn s).trans (frame_setV _ x _)).mono (by simp [Instr.writes])
  | drw x y n => cases h; exact ((frame_setDisplay s _).trans (frame_setV _ _ _)).mono (by simp [Instr.writes])
  | ldVxK x => cases h; exact frame_waitKey s x _
  | ldDTVx x => cases h; exact frame_loadDT s _
  | ldSTVx x => cases h; exact frame_loadST s _
  | ldI _ | addI x | ldF x => cases h; exact frame_setI s _
  | ldB x =>
    cases h
    exact (((frame_memWrite s _ _).trans (frame_memWrite _ _ _)).trans (frame_memWrite _ _ _)).mono
      (by simp [Instr.writes])
  | storeRegs x => cases h; exact (frame_storeRange s _ _).trans (frame_setI _ _)
  | loadRegs x => cases h; exact (frame_loadRange s _ _).trans (frame_setI _ _)

end Sys2Proof.Machine
end

section
/-! SUPPORT. Which registers an instruction writes, and that another value in a register it does not read is carried
along or overwritten (10_state R23). -/

namespace Sys2Proof.Machine

section
variable {s t u : State} {r x : Nibble} {b : Byte}

/-- Of two runs that begin in `s` and in `s.setV r b`, the second has come to `u` where the first is at `t`: it holds the
given value still, or `V[r]` was written with the same value in both. -/
def CarriedOrOverwritten (r : Nibble) (b : Byte) (s t u : State) : Prop :=
  u = t ∨ (t.getV r = s.getV r ∧ u = t.setV r b)

theorem CarriedOrOverwritten.start : CarriedOrOverwritten r b s s (s.setV r b) := .inr ⟨rfl, rfl⟩

/-- Both runs write the same value to a register. -/
theorem CarriedOrOverwritten.setV (h : CarriedOrOverwritten r b s t u) (x : Nibble) (c : Byte) :
    CarriedOrOverwritten r b s (t.setV x c) (u.setV x c) := by
  obtain rfl | ⟨hk, rfl⟩ := h
  · exact .inl rfl
  · by_cases hx : r = x
    · subst hx; exact .inl (setV_setV t r b c)
    · exact .inr ⟨by rw [getV_setV, if_neg hx, hk], setV_comm t hx b c⟩

/-- Both runs do what neither reads nor writes `V[r]`. -/
theorem CarriedOrOverwritten.map (h : CarriedOrOverwritten r b s t u) (f : State → State)
    (hset : f (t.setV r b) = (f t).setV r b) (hget : (f t).getV r = t.getV r) :
    CarriedOrOverwritten r b s (f t) (f u) := by
  obtain rfl | ⟨hk, rfl⟩ := h
  · exact .inl rfl
  · exact .inr ⟨hget.trans hk, hset⟩

theorem CarriedOrOverwritten.frame (h : CarriedOrOverwritten r b s t u) : Frame [.v] t u := by
  obtain rfl | ⟨-, rfl⟩ := h
  · exact Frame.refl _ u
  · exact frame_setV t r b

theorem CarriedOrOverwritten.getV_ne (h : CarriedOrOverwritten r b s t u) {q : Nibble} (hq : q ≠ r) :
    u.getV q = t.getV q := by
  obtain rfl | ⟨-, rfl⟩ := h
  · rfl
  · rw [getV_setV, if_neg hq]

theorem CarriedOrOverwritten.getV_self (h : CarriedOrOverwritten r b s t u) :
    u.getV r = t.getV r ∨ (u.getV r = b ∧ t.getV r = s.getV r) := by
  obtain rfl | ⟨hk, rfl⟩ := h
  · exact .inl rfl
  · exact .inr ⟨by rw [getV_setV, if_pos rfl], hk⟩

/-! ## Operations and a register that they do not read -/

theorem getV_setV_of_beq (h : (r == x) = false) : (s.setV r b).getV x = s.getV x := by
  rw [getV_setV, if_neg (Ne.symm (beq_eq_false_iff_ne.mp h))]

theorem keyIndex_setV_of_beq (h : (r == x) = false) : (s.setV r b).keyIndex x = s.keyIndex x := by
  rw [State.keyIndex, getV_setV_of_beq h, State.keyIndex]

theorem vAsAddress_setV_of_beq (h : (r == x) = false) : (s.setV r b).vAsAddress x = s.vAsAddress x := by
  rw [State.vAsAddress, getV_setV_of_beq h, State.vAsAddress]

theorem glyphAddress_setV_of_beq (h : (r == x) = false) : (s.setV r b).glyphAddress x = s.glyphAddress x := by
  rw [State.glyphAddress, getV_setV_of_beq h, State.glyphAddress]

theorem loadRange_carried (a : Address) (n : Nat) :
    CarriedOrOverwritten r b s (s.loadRange a n) ((s.setV r b).loadRange a n) := by
  induction n with
  | zero => exact .start
  | succ n ih => exact ih.setV _ _

theorem storeRange_setV (a : Address) {n : Nat} (hn : n ≤ r.toNat) :
    (s.setV r b).storeRange a n = (s.storeRange a n).setV r b := by
  induction n with
  | zero => rfl
  | succ n ih =>
    have hr : BitVec.ofNat 4 n ≠ r := fun e => by
      have := congrArg BitVec.toNat e
      simp at this
      omega
    rw [State.storeRange, ih (by omega), getV_setV, if_neg hr]
    rfl

theorem readBytes_setV (a : Address) (n : Nat) : (s.setV r b).readBytes a n = s.readBytes a n :=
  readBytes_congr (fun c => setV_memRead s r b c) a n

theorem skipIf_carried (c : Bool) : CarriedOrOverwritten r b s (s.skipIf c) ((s.setV r b).skipIf c) := by
  cases c <;> exact .inr ⟨rfl, rfl⟩

theorem waitKey_carried (x : Nibble) (k : Option Nibble) :
    CarriedOrOverwritten r b s (s.waitKey x k) ((s.setV r b).waitKey x k) := by
  cases k with
  | none => exact .inr ⟨rfl, rfl⟩
  | some k => exact .setV .start x _

theorem setResultAndFlag_carried (x : Nibble) (w : Byte) (c : Bool) :
    CarriedOrOverwritten r b s (s.setResultAndFlag x w c) ((s.setV r b).setResultAndFlag x w c) :=
  .setV (.setV .start x w) _ _

end

variable {s t : State}

/-- A register outside the "writes" column keeps its value. -/
theorem exec_getV_of_not_writesReg {i : Instr} {r : Nibble} (hw : i.writesReg r = false) (h : exec i s = .next t) :
    t.getV r = s.getV r := by
  by_cases hv : Part.v ∈ i.writes
  · cases i with
    | loadRegs x =>
      cases h
      have hx : ¬ r.toNat < rangeCount x := by simpa [Instr.writesReg, rangeCount, Nat.lt_succ_iff] using hw
      have := x.isLt
      rw [setI_getV, loadRange_getV s _ (by rw [rangeCount]; omega), if_neg hx]
    | ldVxK x =>
      cases h
      cases s.firstPressed <;> simp_all [State.waitKey, Instr.writesReg]
    | ldImm x _ | addImm x _ | ldReg x _ | orReg x _ | andReg x _ | xorReg x _ | ldVxDT x | addReg x _ | subReg x _
    | shr x _ | subnReg x _ | shl x _ | rnd x _ | drw x _ _ =>
      cases h; simp_all [Instr.writesReg]
    | _ => simp [Instr.writes] at hv
  · exact exec_frame h .v hv r

/-- Another value in a register outside the "reads" column is carried along or overwritten. -/
theorem exec_setV_of_not_readsReg {i : Instr} {r : Nibble} (b : Byte) (hr : i.readsReg r = false)
    (h : exec i s = .next t) : ∃ u, exec i (s.setV r b) = .next u ∧ CarriedOrOverwritten r b s t u := by
  cases i with
  | cls | jp nnn | ldI nnn => cases h; exact ⟨_, rfl, .inr ⟨rfl, rfl⟩⟩
  | ret =>
    obtain ⟨hs, rfl⟩ | ⟨hs, a, ha, rfl⟩ := execRet_next h
    · exact ⟨_, execRet_underflow hs, .inr ⟨rfl, rfl⟩⟩
    · exact ⟨_, execRet_slot hs ha, .inr ⟨rfl, rfl⟩⟩
  | call nnn =>
    obtain ⟨hs, rfl⟩ | ⟨hs, rfl⟩ := execCall_next h
    · exact ⟨_, execCall_overflow nnn hs, .inr ⟨rfl, rfl⟩⟩
    · exact ⟨_, execCall_push nnn hs, .inr ⟨rfl, rfl⟩⟩
  | ldImm x _ | ldVxDT x => cases h; exact ⟨_, rfl, CarriedOrOverwritten.start.setV x _⟩
  | rnd x kk => cases h; exact ⟨_, rfl, (CarriedOrOverwritten.start.map State.rngDrawn rfl rfl).setV x _⟩
  | ldVxK x => cases h; exact ⟨_, rfl, waitKey_carried x s.firstPressed⟩
  | loadRegs x => cases h; exact ⟨_, rfl, (loadRange_carried s.i _).map (State.setI · (s.ea (rangeCount x))) rfl rfl⟩
  | storeRegs x =>
    have hx : rangeCount x ≤ r.toNat := Nat.lt_of_not_le (of_decide_eq_false hr)
    cases h
    refine ⟨_, rfl, .inr ⟨?_, ?_⟩⟩
    · rw [setI_getV, storeRange_getV]
    · rw [setV_i, storeRange_setV s.i hx]; rfl
  | seImm x _ | sneImm x _ => cases h; exact ⟨_, rfl, by rw [getV_setV_of_beq hr]; exact skipIf_carried _⟩
  | skp x | sknp x => cases h; exact ⟨_, rfl, by rw [keyIndex_setV_of_beq hr]; exact skipIf_carried _⟩
  | seReg x y | sneReg x y =>
    obtain ⟨hx, hy⟩ := Bool.or_eq_false_iff.mp hr
    cases h
    exact ⟨_, rfl, by rw [getV_setV_of_beq hx, getV_setV_of_beq hy]; exact skipIf_carried _⟩
  | addImm x _ | ldReg _ x => cases h; exact ⟨_, rfl, by rw [getV_setV_of_beq hr]; exact .setV .start _ _⟩
  | orReg x y | andReg x y | xorReg x y =>
    obtain ⟨hx, hy⟩ := Bool.or_eq_false_iff.mp hr
    cases h
    exact ⟨_, rfl, by rw [getV_setV_of_beq hx, getV_setV_of_beq hy]; exact .setV .start x _⟩
  | shr x _ | shl x _ => cases h; exact ⟨_, rfl, by rw [getV_setV_of_beq hr]; exact setResultAndFlag_carried x _ _⟩
  | addReg x y | subReg x y | subnReg x y =>
    obtain ⟨hx, hy⟩ := Bool.or_eq_false_iff.mp hr
    cases h
    exact ⟨_, rfl, by rw [getV_setV_of_beq hx, getV_setV_of_beq hy]; exact setResultAndFlag_carried x _ _⟩
  | drw x y n =>
    obtain ⟨hx, hy⟩ := Bool.or_eq_false_iff.mp hr
    cases h
    refine ⟨_, rfl, ?_⟩
    rw [getV_setV_of_beq hx, getV_setV_of_beq hy, readBytes_setV]
    exact .setV (.map .start (State.setDisplay · _) rfl rfl) _ _
  | jpV0 _ => cases h; exact ⟨_, rfl, .inr ⟨rfl, by rw [State.offsetTarget, vAsAddress_setV_of_beq hr]; rfl⟩⟩
  | addI x => cases h; exact ⟨_, rfl, .inr ⟨rfl, by rw [vAsAddress_setV_of_beq hr]; rfl⟩⟩
  | ldF x => cases h; exact ⟨_, rfl, .inr ⟨rfl, by rw [glyphAddress_setV_of_beq hr]; rfl⟩⟩
  | ldDTVx x | ldSTVx x | ldB x => cases h; exact ⟨_, rfl, .inr ⟨rfl, by rw [getV_setV_of_beq hr]; rfl⟩⟩

end Sys2Proof.Machine
end

section
/-! SUPPORT. ST is read by no instruction (10_state R30): another value in it is carried along. -/

namespace Sys2Proof.Machine

section
variable (s : State) (b : Byte)

theorem skipIf_loadST (c : Bool) : (s.timerLoad .ST b).skipIf c = (s.skipIf c).timerLoad .ST b := by cases c <;> rfl

theorem waitKey_loadST (x : Nibble) (k : Option Nibble) :
    (s.timerLoad .ST b).waitKey x k = (s.waitKey x k).timerLoad .ST b := by cases k <;> rfl

theorem loadRange_loadST (a : Address) (n : Nat) :
    (s.timerLoad .ST b).loadRange a n = (s.loadRange a n).timerLoad .ST b := by
  induction n with
  | zero => rfl
  | succ n ih => rw [State.loadRange, ih]; rfl

theorem storeRange_loadST (a : Address) (n : Nat) :
    (s.timerLoad .ST b).storeRange a n = (s.storeRange a n).timerLoad .ST b := by
  induction n with
  | zero => rfl
  | succ n ih => rw [State.storeRange, ih]; rfl

theorem readBytes_loadST (a : Address) (n : Nat) : (s.timerLoad .ST b).readBytes a n = s.readBytes a n :=
  readBytes_congr (fun c => loadST_memRead s b c) a n

end

variable {s t : State}

/-- Every instruction but LD ST, Vx carries another value of ST along. -/
theorem exec_loadST {i : Instr} (b : Byte) (hi : ∀ x, i ≠ .ldSTVx x) (h : exec i s = .next t) :
    exec i (s.timerLoad .ST b) = .next (t.timerLoad .ST b) := by
  cases i with
  | ldSTVx x => exact absurd rfl (hi x)
  | ret =>
    obtain ⟨hs, rfl⟩ | ⟨hs, a, ha, rfl⟩ := execRet_next h
    · exact execRet_underflow hs
    · exact execRet_slot hs ha
  | call nnn =>
    obtain ⟨hs, rfl⟩ | ⟨hs, rfl⟩ := execCall_next h
    · exact execCall_overflow nnn hs
    · exact execCall_push nnn hs
  | seImm x _ | sneImm x _ | seReg x _ | sneReg x _ | skp x | sknp x =>
    cases h; exact congrArg _ (skipIf_loadST s b _)
  | ldVxK x => cases h; exact congrArg _ (waitKey_loadST s b x _)
  | loadRegs x => cases h; rw [exec, execLoadRegs, loadST_i, loadRange_loadST]; rfl
  | storeRegs x => cases h; rw [exec, execStoreRegs, loadST_i, storeRange_loadST]; rfl
  | drw x y n => cases h; rw [exec, execDrw, loadST_i, readBytes_loadST]; rfl
  | _ => cases h; rfl

end Sys2Proof.Machine
end

section
/-! SUPPORT. The decoder against its tables (30_encoding R72, R74). -/

namespace Sys2Proof

section
variable {w : Word} {i : Instr}

theorem encode_of_decodeOp8 (hop : opField w = 0x8#4) (h : decodeOp8 w = .ok i) : encode i = w := by
  unfold decodeOp8 at h
  split at h <;> cases h
  all_goals
    next hn => rw [encode, ← hop, ← hn, word_xyn]

theorem encode_of_decodeOpE (hop : opField w = 0xE#4) (h : decodeOpE w = .ok i) : encode i = w := by
  unfold decodeOpE at h
  split at h <;> cases h
  all_goals
    next hk => rw [encode, ← hop, ← hk, word_xkk]

theorem encode_of_decodeOpF (hop : opField w = 0xF#4) (h : decodeOpF w = .ok i) : encode i = w := by
  unfold decodeOpF at h
  split at h <;> cases h
  all_goals
    next hk => rw [encode, ← hop, ← hk, word_xkk]

/-- A word that decodes is the word of the instruction it decodes to. -/
theorem encode_of_decodeWord (h : decodeWord w = .ok i) : encode i = w := by
  unfold decodeWord at h -- the arms in order: `h_1` is family 0, `h_16` family F
  split at h
  case h_1 =>
    split_ifs at h with hcls hret <;> cases h
    · exact hcls.symm
    · exact hret.symm
  case h_9 hop => exact encode_of_decodeOp8 hop h
  case h_15 hop => exact encode_of_decodeOpE hop h
  case h_16 hop => exact encode_of_decodeOpF hop h
  case h_6 hop | h_10 hop =>
    split_ifs at h with hn
    cases h
    rw [encode, ← hop, ← hn, word_xyn]
  case h_2 hop | h_3 hop | h_11 hop | h_12 hop => cases h; rw [encode, ← hop, word_nnn]
  case h_4 hop | h_5 hop | h_7 hop | h_8 hop | h_13 hop => cases h; rw [encode, ← hop, word_xkk]
  case h_14 hop => cases h; rw [encode, ← hop, word_xyn]
  case h_17 => cases h

theorem badOp8_of_decodeOp8_error {e : DecodeError} (hop : opField w = 0x8#4) (h : decodeOp8 w = .error e) :
    badOp8 w = true := by
  rw [badOp8, ← opField_toNat, ← nField_toNat, hop]
  unfold decodeOp8 at h
  generalize nField w = n at h ⊢
  split at h <;> cases h
  decide +revert

theorem badOpE_of_decodeOpE_error {e : DecodeError} (hop : opField w = 0xE#4) (h : decodeOpE w = .error e) :
    badOpE w = true := by
  rw [badOpE, ← opField_toNat, ← kkField_toNat, hop]
  unfold decodeOpE at h
  generalize kkField w = k at h ⊢
  split at h <;> cases h
  decide +revert

theorem badOpF_of_decodeOpF_error {e : DecodeError} (hop : opField w = 0xF#4) (h : decodeOpF w = .error e) :
    badOpF w = true := by
  rw [badOpF, ← opField_toNat, ← kkField_toNat, hop]
  unfold decodeOpF at h
  generalize kkField w = k at h ⊢
  split at h <;> cases h
  decide +revert

/-- A word on which the decoder errs is in the table of 30_encoding R74. -/
theorem recognised_of_decodeWord_error {e : DecodeError} (h : decodeWord w = .error e) : recognised w = false := by
  unfold decodeWord at h -- the arms in order: `h_1` is family 0, `h_16` family F
  split at h
  case h_1 hop =>
    split_ifs at h with hcls hret
    simp [recognised, badOp0, ← opField_toNat, hop, hcls, hret]
  case h_6 hop | h_10 hop =>
    split_ifs at h with hn
    have hn : (nField w).toNat ≠ 0 := fun e => hn (BitVec.eq_of_toNat_eq e)
    simp [recognised, badOp5or9, ← opField_toNat, hop, ← nField_toNat, hn]
  case h_9 hop => simp [recognised, badOp8_of_decodeOp8_error hop h]
  case h_15 hop => simp [recognised, badOpE_of_decodeOpE_error hop h]
  case h_16 hop => simp [recognised, badOpF_of_decodeOpF_error hop h]
  case h_17 => exfalso; clear h; generalize opField w = o at *; revert o; decide -- no nibble is left
  all_goals cases h

end

end Sys2Proof
end

section
/-! SUPPORT. The invariant: instructions answer a next state where it holds, and keep it (10_state R28, R32). -/

namespace Sys2Proof.Machine

variable {s t : State} {i : Instr}

/-! ## Above 16 there is no slot (entry 12) -/

theorem toNat_sub_one {b : Byte} (h : b ≠ 0#8) : (b - 1#8).toNat = b.toNat - 1 := by bv_omega

theorem execCall_no_slot (nnn : Address) (h : Config.stackDepth < s.sp.toNat) :
    execCall nnn s = .fault .noSuchStackSlot := by
  have h16 : s.sp ≠ 16#8 := fun e => by rw [e] at h; exact absurd h (by decide)
  rw [execCall, if_neg h16, if_neg (Nat.not_lt_of_gt h)]

theorem execRet_no_slot (h : Config.stackDepth < s.sp.toNat) : execRet s = .fault .noSuchStackSlot := by
  have h0 : s.sp ≠ 0#8 := fun e => by rw [e] at h; exact absurd h (by decide)
  have hk : Config.stackDepth ≤ (s.sp - 1#8).toNat := by rw [toNat_sub_one h0]; exact Nat.le_sub_one_of_lt h
  rw [execRet, if_neg h0, readSlot_eq_none s hk]

/-! ## With SP at most 16 every instruction answers a next state (10_state R28) -/

theorem exec_answers (i : Instr) (h : s.sp.toNat ≤ Config.stackDepth) : ∃ t, exec i s = .next t := by
  cases i with
  | ret =>
    by_cases h0 : s.sp = 0#8
    · exact ⟨_, execRet_underflow h0⟩
    · obtain ⟨a, -, -, hr⟩ := execRet_pop (Nat.pos_of_ne_zero fun e => h0 (BitVec.eq_of_toNat_eq e)) h
      exact ⟨_, hr⟩
  | call nnn =>
    obtain hlt | heq := Nat.lt_or_eq_of_le h
    · exact ⟨_, execCall_push nnn hlt⟩
    · exact ⟨_, execCall_overflow nnn (BitVec.eq_of_toNat_eq heq)⟩
  | _ => exact ⟨_, rfl⟩

theorem executeOne_answers (h : s.sp.toNat ≤ Config.stackDepth) : ∃ t, s.executeOne = .next t := by
  obtain ⟨-, he⟩ | ⟨-, -, he⟩ | ⟨-, i, -, he⟩ := executeOne_cases s
  · exact ⟨_, he⟩
  · exact ⟨_, he⟩
  · rw [he]; exact exec_answers i h

/-! ## The three clauses of the invariant, one by one -/

/-- Memory stays in canonical form (entry 24). -/
theorem exec_wf_mem (h : exec i s = .next t) (hm : Memory.wf s.mem) : Memory.wf t.mem := by
  cases i with
  | ldB x => cases h; exact wf_memWrite (wf_memWrite (wf_memWrite hm _ _) _ _) _ _
  | storeRegs x => cases h; exact wf_storeRange hm _ _
  | loadRegs x => cases h; rw [setI_mem, loadRange_mem]; exact hm
  | ret => obtain ⟨-, rfl⟩ | ⟨-, a, -, rfl⟩ := execRet_next h <;> exact hm
  | call nnn => obtain ⟨-, rfl⟩ | ⟨-, rfl⟩ := execCall_next h <;> exact hm
  | seImm x _ | sneImm x _ | seReg x _ | sneReg x _ | skp x | sknp x => cases h; rw [skipIf_eq]; exact hm
  | ldVxK x => cases h; cases s.firstPressed <;> exact hm
  | _ => cases h; exact hm

/-- SP counts at most 16 return addresses (10_state R28). -/
theorem exec_sp_le (h : exec i s = .next t) (hs : s.sp.toNat ≤ Config.stackDepth) : t.sp.toNat ≤ Config.stackDepth := by
  by_cases hsp : Part.sp ∈ i.writes
  · cases i with
    | ret =>
      obtain ⟨-, rfl⟩ | ⟨h0, a, -, rfl⟩ := execRet_next h
      · exact hs
      · rw [setPc_sp, setSp_sp, toNat_sub_one h0]
        exact Nat.le_trans (Nat.sub_le _ _) hs
    | call nnn =>
      obtain ⟨-, rfl⟩ | ⟨hlt, rfl⟩ := execCall_next h
      · exact hs
      · rw [setPc_sp, setSp_sp, BitVec.toNat_add]
        exact Nat.le_trans (Nat.mod_le _ _) hlt
    | _ => simp [Instr.writes] at hsp
  · have hsp : t.sp = s.sp := exec_frame h .sp hsp
    rw [hsp]; exact hs

/-- A running engine's record stays that of a running engine while the four status fields are as before. -/
theorem State.RecordOk.of_same_core (hr : s.RecordOk) (hc : s.coreStatus = .running) (h : Part.core.same s t) :
    t.RecordOk := by
  obtain ⟨hstatus, hcode, hword, hpc⟩ := h
  obtain ⟨hcode', hword', hpc'⟩ := hr.1 hc
  refine ⟨fun _ => ⟨hcode.trans hcode', hword.trans hword', hpc.trans hpc'⟩, fun hh => ?_⟩
  rw [hstatus, hc] at hh
  cases hh

/-- Fault entry after the step's advance of PC is fault entry before it (60_exceptions R232). -/
theorem advancePc_enterFault (s : State) (f : FaultCondition) (w : Word) :
    s.advancePc.enterFault f w (s.advancePc.pc - 2#12) = s.enterFault f w s.pc := by
  simp [State.enterFault]

theorem exec_recordOk (hr : s.RecordOk) (hc : s.coreStatus = .running) (hd : decodeWord (s.fetch s.pc) = .ok i)
    (h : exec i s.advancePc = .next t) : t.RecordOk := by
  have hw := encode_of_decodeWord hd
  by_cases hcore : Part.core ∈ i.writes
  · cases i with
    | ret =>
      obtain ⟨hs, rfl⟩ | ⟨-, a, -, rfl⟩ := execRet_next h
      · rw [advancePc_enterFault]
        exact ⟨nofun, fun _ => ⟨rfl, hw, .inr (.inr ⟨rfl, hs, rfl⟩)⟩⟩
      · exact hr.of_same_core hc ⟨rfl, rfl, rfl, rfl⟩
    | call nnn =>
      obtain ⟨hs, rfl⟩ | ⟨-, rfl⟩ := execCall_next h
      · rw [advancePc_enterFault]
        exact ⟨nofun, fun _ => ⟨rfl, hw, .inr (.inl ⟨rfl, hs, opField_nnn _ nnn⟩)⟩⟩
      · exact hr.of_same_core hc ⟨rfl, rfl, rfl, rfl⟩
    | _ => simp [Instr.writes] at hcore
  · exact hr.of_same_core hc (exec_frame h .core hcore)

theorem executeOne_inv (hs : s.Inv) (h : s.executeOne = .next t) : t.Inv := by
  obtain ⟨hm, hsp, hr⟩ := hs
  obtain ⟨-, he⟩ | ⟨-, ⟨e, hd⟩, he⟩ | ⟨hc, i, hd, he⟩ := executeOne_cases s <;> rw [he] at h
  · cases h
    exact ⟨hm, hsp, hr⟩
  · cases h
    exact ⟨hm, hsp, nofun, fun _ => ⟨rfl, rfl, .inl ⟨rfl, recognised_of_decodeWord_error hd⟩⟩⟩
  · exact ⟨exec_wf_mem h hm, exec_sp_le h hsp, exec_recordOk hr hc hd h⟩

/-- The other agents' transactions touch nothing the invariant speaks of. -/
theorem inv_takeSlot_land (evs : List AgentEvent) (hs : s.Inv) : (s.takeSlot.land evs).Inv := hs

end Sys2Proof.Machine
end

section
/-! The obligations on the state (10_state). -/

open Sys2Proof Sys2Proof.Machine

/-- Settles O55: the other agents touch nothing the invariant speaks of, and `executeOne` keeps it clause by clause. -/
theorem stepKeepsTheInvariant : Obligations.StepKeepsTheInvariant := by
  unfold Obligations.StepKeepsTheInvariant
  intro s t hs h
  exact executeOne_inv (inv_takeSlot_land s.landing hs) h

/-- Settles O57, by the frame of each instruction, composed of those of its operations. -/
theorem instructionsWriteOnlyTheirParts : Obligations.InstructionsWriteOnlyTheirParts := by
  unfold Obligations.InstructionsWriteOnlyTheirParts
  exact fun i s t h => exec_frame h

/-- Settles O58: the run from the other value carries it along, or overwrites it as the first run does. -/
theorem registerReadersAndWriters : Obligations.RegisterReadersAndWriters := by
  unfold Obligations.RegisterReadersAndWriters
  intro i r b s t h
  refine ⟨fun hw => exec_getV_of_not_writesReg hw h, fun hr => ?_⟩
  obtain ⟨u, hu, hc⟩ := exec_setV_of_not_readsReg b hr h
  exact ⟨u, hu, hc.frame, fun q hq => hc.getV_ne hq, hc.getV_self⟩

/-- Settles O56: SP at most 16 is what CALL and RET need to answer. -/
theorem invariantStatesAlwaysStep : Obligations.InvariantStatesAlwaysStep := by
  unfold Obligations.InvariantStatesAlwaysStep
  intro evs s hs
  have ⟨_, hsp, _⟩ := hs
  obtain ⟨t, ht⟩ := executeOne_answers (s := s.takeSlot.land evs) hsp
  exact ⟨t, ht, executeOne_inv (inv_takeSlot_land evs hs) ht⟩

/-- Settles O59: LD ST, Vx overwrites the other value, every other instruction carries it along. -/
theorem noInstructionReadsSoundTimer : Obligations.NoInstructionReadsSoundTimer := by
  unfold Obligations.NoInstructionReadsSoundTimer
  intro i b s t h
  by_cases hi : ∃ x, i = .ldSTVx x
  · obtain ⟨x, rfl⟩ := hi
    cases h
    exact ⟨_, rfl, Frame.refl _ _, .inl rfl⟩
  · have hi : ∀ x, i ≠ .ldSTVx x := fun x e => hi ⟨x, e⟩
    have hst : Part.st ∉ i.writes := by cases i <;> simp [Instr.writes] at hi ⊢
    exact ⟨_, exec_loadST b hi h, frame_loadST t b, .inr ⟨rfl, exec_frame h .st hst⟩⟩

/-- Settles O24, from the guards of CALL and RET. -/
theorem noSlotAboveSixteenStops : Obligations.NoSlotAboveSixteenStops := by
  unfold Obligations.NoSlotAboveSixteenStops
  exact fun nnn s h => ⟨execCall_no_slot nnn h, execRet_no_slot h⟩

/-- Settles O54: nothing is listed in memory, SP is 0, the engine runs. -/
theorem resetMeetsTheInvariant : Obligations.ResetMeetsTheInvariant := by
  unfold Obligations.ResetMeetsTheInvariant
  exact ⟨wf_nil, by decide, fun _ => ⟨rfl, rfl, rfl⟩, nofun⟩

end

section
/-! SUPPORT. The bytes a fetch reads, what Fx55 leaves in memory, what a load does (20_memory R54, R59, R65). -/

namespace Sys2Proof

theorem toNat_wordOfBytes (hi lo : Byte) : (wordOfBytes hi lo).toNat = 256 * hi.toNat + lo.toNat := by
  have h : hi.toNat <<< 8 + lo.toNat = (wordOfBytes hi lo).toNat :=
    (Nat.shiftLeft_add_eq_or_of_lt lo.isLt hi.toNat).trans (BitVec.toNat_append hi lo).symm
  rw [← h, Nat.shiftLeft_eq]
  omega

end Sys2Proof

namespace Sys2Proof.Machine

variable {s t : State} {bytes : List Byte}

/-! ## Fetch -/

theorem toNat_fetch (s : State) (pc : Address) :
    (s.fetch pc).toNat = 256 * (s.memRead pc).toNat + (s.memRead (pc + 1#12)).toNat :=
  toNat_wordOfBytes _ _

theorem highByte_fetch (s : State) (pc : Address) : highByte (s.fetch pc) = s.memRead pc :=
  highByte_wordOfBytes _ _

/-! ## Stored registers -/

/-- Fx55 stores register `k` at `I +_12 k`, up to `x` (43_index_memory R174). -/
theorem memRead_of_storeRegs {x : Nibble} (hm : Memory.wf s.mem) (h : exec (.storeRegs x) s = .next t) {k : Nat}
    (hk : k ≤ x.toNat) : t.memRead (s.i + BitVec.ofNat 12 k) = s.getV (BitVec.ofNat 4 k) := by
  cases h
  have hx : x.toNat < 16 := x.isLt
  have hlt : k < rangeCount x := Nat.lt_succ_of_le hk
  have hoff : (s.i + BitVec.ofNat 12 k - s.i).toNat = k := by
    rw [add_sub_cancel_left, BitVec.toNat_ofNat, Nat.mod_eq_of_lt (by omega)]
  rw [setI_memRead, memRead_storeRange hm s.i (n := rangeCount x) hx, hoff, if_pos hlt]

/-! ## Load -/

/-- After a load, the image is read from 0x200 on, and every other byte is as before. -/
theorem memRead_load (hm : Memory.wf s.mem) (h : s.load bytes = .next t) (a : Address) :
    t.memRead a = if Config.progBase ≤ a.toNat ∧ a.toNat < Config.progBase + bytes.length
      then bytes.getD (a.toNat - Config.progBase) 0x00#8 else s.memRead a := by
  obtain ⟨hb, rfl⟩ := load_next h
  exact read_writeBytes hm bytes (progBase_add_le hb) a.toNat

theorem memRead_load_image (hm : Memory.wf s.mem) (h : s.load bytes = .next t) {k : Nat} {b : Byte}
    (hk : bytes[k]? = some b) : t.memRead (BitVec.ofNat 12 (Config.progBase + k)) = b := by
  obtain ⟨hlt, -⟩ := List.getElem?_eq_some_iff.mp hk
  have hle : Config.progBase + bytes.length ≤ 4096 := progBase_add_le (load_next h).1
  have ha : (BitVec.ofNat 12 (Config.progBase + k)).toNat = Config.progBase + k := by
    rw [BitVec.toNat_ofNat, Nat.mod_eq_of_lt (by omega)]
  rw [memRead_load hm h, ha, if_pos (by omega), Nat.add_sub_cancel_left, List.getD_eq_getElem?_getD, hk,
    Option.getD_some]

theorem memRead_load_outside (hm : Memory.wf s.mem) (h : s.load bytes = .next t) {a : Address}
    (ha : a.toNat < Config.progBase ∨ Config.progBase + bytes.length ≤ a.toNat) : t.memRead a = s.memRead a := by
  rw [memRead_load hm h, if_neg (by omega)]

theorem wf_load (hm : Memory.wf s.mem) (h : s.load bytes = .next t) : Memory.wf t.mem := by
  obtain ⟨hb, rfl⟩ := load_next h
  exact wf_writeBytes hm bytes (progBase_add_le hb)

theorem frame_load (h : s.load bytes = .next t) : Frame [.mem] s t := by
  obtain ⟨-, rfl⟩ := load_next h
  intro p hp
  cases p with
  | mem => simp at hp
  | v => exact fun _ => rfl
  | core => exact ⟨rfl, rfl, rfl, rfl⟩
  | tclk | schedule => exact ⟨rfl, rfl⟩
  | _ => rfl

/-- A load before the first fault keeps the invariant: with no fault recorded, it asks of memory the canonical form
alone. -/
theorem inv_load (hs : s.Inv) (hc : s.coreStatus = .running) (h : s.load bytes = .next t) : t.Inv := by
  obtain ⟨hm, hsp, hr⟩ := hs
  have hf := frame_load h
  have hsp' : t.sp = s.sp := hf .sp (by decide)
  exact ⟨wf_load hm h, hsp' ▸ hsp, hr.of_same_core hc (hf .core (by decide))⟩

/-- Boot is a load into the reset state (70_reset R283): starting the clock and loading do not touch the same parts. -/
theorem boot_eq_load_reset (bytes : List Byte) : boot bytes = State.reset.load bytes := by
  by_cases hb : bytes.length ≤ Config.progMax
  · rw [boot, load_fits hb, load_fits hb]
    rfl
  · rw [boot, load_too_large (Nat.lt_of_not_le hb), load_too_large (Nat.lt_of_not_le hb)]

end Sys2Proof.Machine
end

section
/-! The obligations on memory (20_memory). -/

open Sys2Proof Sys2Proof.Machine

/-- Settles O5: the fetched word is the two bytes appended. -/
theorem fetchIsBigEndianAtAnyAddress : Obligations.FetchIsBigEndianAtAnyAddress := by
  unfold Obligations.FetchIsBigEndianAtAnyAddress
  exact fun s pc => ⟨toNat_fetch s pc, highByte_fetch s pc⟩

/-- Settles O6, from the read after a write, the form kept and the frame of a write. -/
theorem memWriteChangesExactlyOneByte : Obligations.MemWriteChangesExactlyOneByte := by
  unfold Obligations.MemWriteChangesExactlyOneByte
  exact fun s a w hm => ⟨memRead_memWrite hm a w, wf_memWrite hm a w, frame_memWrite s a w⟩

/-- Settles O33: the fetch reads offsets `r` and `r + 1`, both in the stored range since `r < x`. -/
theorem storedBytesAreFetched : Obligations.StoredBytesAreFetched := by
  unfold Obligations.StoredBytesAreFetched
  intro x r s t hm hr h
  have hhi := memRead_of_storeRegs hm h (Nat.le_of_lt hr)
  have hlo := memRead_of_storeRegs hm h (k := r.toNat + 1) hr
  have hreg : BitVec.ofNat 4 (r.toNat + 1) = r + 1#4 := by
    rw [BitVec.ofNat_add, BitVec.ofNat_toNat, BitVec.setWidth_eq]
  rw [hreg, BitVec.ofNat_add, ← BitVec.add_assoc] at hlo
  rw [toNat_fetch, hhi, hlo, BitVec.ofNat_toNat, BitVec.setWidth_eq]

/-- Settles O53: a load that fits is a block write at 0x200, and boot is that load into the reset state. -/
theorem loadAndBootPlaceTheProgramOrFail : Obligations.LoadAndBootPlaceTheProgramOrFail := by
  unfold Obligations.LoadAndBootPlaceTheProgramOrFail
  intro bytes s hm
  refine ⟨fun hb => ?_, load_too_large, rfl, rfl, boot_eq_load_reset bytes, fun hb => ?_⟩
  · have h := load_fits (s := s) hb
    exact ⟨_, h, fun _ _ => memRead_load_image hm h, fun _ => memRead_load_outside hm h, wf_load hm h, frame_load h⟩
  · have h := load_fits (s := State.reset) hb
    exact ⟨_, (boot_eq_load_reset bytes).trans h, inv_load resetMeetsTheInvariant rfl h⟩

end

section
/-! SUPPORT. The decoder reads every encoding back, and errs exactly on the words of the table (30_encoding R72 to
R74). -/

namespace Sys2Proof

/-! ## Decoding what was encoded (R72, R73) -/

section
open Laws.RoundTrip

theorem Laws.roundTrip_all : ∀ i : Instr, Statement i
  | .cls => cls
  | .ret => ret
  | .jp nnn => jp nnn
  | .call nnn => call nnn
  | .seImm x kk => seImm x kk
  | .sneImm x kk => sneImm x kk
  | .seReg x y => seReg x y
  | .ldImm x kk => ldImm x kk
  | .addImm x kk => addImm x kk
  | .ldReg x y => ldReg x y
  | .orReg x y => orReg x y
  | .andReg x y => andReg x y
  | .xorReg x y => xorReg x y
  | .addReg x y => addReg x y
  | .subReg x y => subReg x y
  | .shr x y => shr x y
  | .subnReg x y => subnReg x y
  | .shl x y => shl x y
  | .sneReg x y => sneReg x y
  | .ldI nnn => ldI nnn
  | .jpV0 nnn => jpV0 nnn
  | .rnd x kk => rnd x kk
  | .drw x y n => drw x y n
  | .skp x => skp x
  | .sknp x => sknp x
  | .ldVxDT x => ldVxDT x
  | .ldVxK x => ldVxK x
  | .ldDTVx x => ldDTVx x
  | .ldSTVx x => ldSTVx x
  | .addI x => addI x
  | .ldF x => ldF x
  | .ldB x => ldB x
  | .storeRegs x => storeRegs x
  | .loadRegs x => loadRegs x

end

@[simp] theorem decodeWord_encode (i : Instr) : decodeWord (encode i) = .ok i := (Laws.roundTrip_all i).1

/-- On two bytes or more, the bytes decode as their word does, and what follows them is left. -/
theorem decode_eq_ok_iff {hi lo : Byte} {bs rest : List Byte} {i : Instr} :
    decode (hi :: lo :: bs) = .ok (i, rest) ↔ decodeWord (wordOfBytes hi lo) = .ok i ∧ bs = rest := by
  rw [decode]
  cases decodeWord (wordOfBytes hi lo) with
  | ok j => simp
  | error e => simp

theorem decode_encodeBytes (i : Instr) (rest : List Byte) : decode (encodeBytes i ++ rest) = .ok (i, rest) :=
  decode_eq_ok_iff.mpr ⟨by rw [wordOfBytes_high_low, decodeWord_encode], rfl⟩

/-! ## The unrecognised words (R74) -/

section
variable {w : Word}

theorem decodeOp8_error {e : DecodeError} (h : decodeOp8 w = .error e) : e = .unrecognizedOpcode w := by
  unfold decodeOp8 at h
  split at h <;> cases h
  rfl

theorem decodeOpE_error {e : DecodeError} (h : decodeOpE w = .error e) : e = .unrecognizedOpcode w := by
  unfold decodeOpE at h
  split at h <;> cases h
  rfl

theorem decodeOpF_error {e : DecodeError} (h : decodeOpF w = .error e) : e = .unrecognizedOpcode w := by
  unfold decodeOpF at h
  split at h <;> cases h
  rfl

/-- The decoder's one error on a word keeps the word. -/
theorem decodeWord_error {e : DecodeError} (h : decodeWord w = .error e) : e = .unrecognizedOpcode w := by
  unfold decodeWord at h -- the arms in order: `h_1` is family 0, `h_16` family F
  split at h
  case h_1 => split_ifs at h; cases h; rfl
  case h_6 | h_10 => split_ifs at h; cases h; rfl
  case h_9 => exact decodeOp8_error h
  case h_15 => exact decodeOpE_error h
  case h_16 => exact decodeOpF_error h
  all_goals cases h
  rfl

/-- No line of the table names an instruction's word. -/
theorem recognised_encode (i : Instr) : recognised (encode i) = true := by
  simp only [recognised, badOp0, badOp5or9, badOp8, badOpE, badOpF, ← opField_toNat, ← nField_toNat, ← kkField_toNat]
  cases i with
  | cls | ret => decide
  | _ => simp [encode]

theorem decodeWord_of_recognised (h : recognised w = true) : ∃ i, decodeWord w = .ok i := by
  cases hd : decodeWord w with
  | ok i => exact ⟨i, rfl⟩
  | error e => rw [recognised_of_decodeWord_error hd] at h; cases h

theorem decodeWord_of_not_recognised (h : recognised w = false) : decodeWord w = .error (.unrecognizedOpcode w) := by
  cases hd : decodeWord w with
  | ok i => rw [← encode_of_decodeWord hd, recognised_encode] at h; cases h
  | error e => rw [decodeWord_error hd]

end

end Sys2Proof
end

section
/-! SUPPORT. The words of the table of 30_encoding R74, counted family by family. -/

namespace Sys2Proof

/-! ## Counting over a range -/

theorem countP_range_add (p : Nat → Bool) (m n : Nat) :
    (List.range (m + n)).countP p = (List.range m).countP p + (List.range n).countP (fun k => p (m + k)) := by
  rw [List.range_add, List.countP_append, List.countP_map]
  rfl

/-- A range of `n * m` numbers is `m` blocks of `n`. -/
theorem countP_range_mul (p : Nat → Bool) (n m : Nat) :
    (List.range (n * m)).countP p = ∑ o ∈ Finset.range m, (List.range n).countP (fun k => p (n * o + k)) := by
  induction m with
  | zero => rfl
  | succ m ih => rw [Nat.mul_succ, countP_range_add, ih, Finset.sum_range_succ]

/-- What is asked of the remainder alone holds as often in every block. -/
theorem countP_range_mod (q : Nat → Bool) (n m : Nat) :
    (List.range (n * m)).countP (fun k => q (k % n)) = m * (List.range n).countP q := by
  have hblock (o : Nat) : (List.range n).countP (fun k => q ((n * o + k) % n)) = (List.range n).countP q :=
    List.countP_congr fun k hk => by rw [Nat.mul_add_mod, Nat.mod_eq_of_lt (List.mem_range.mp hk)]
  rw [countP_range_mul, Finset.sum_congr rfl fun o _ => hblock o, Finset.sum_const, Finset.card_range, smul_eq_mul]

/-- Counting by the opposite. Stated for two predicates, so that the kernel never compares the counts themselves. -/
theorem countP_range_of_eq_not {q r : Nat → Bool} (n : Nat) (h : ∀ k, q k = !r k) :
    (List.range n).countP q = n - (List.range n).countP r := by
  have hsum := List.length_eq_countP_add_countP r (l := List.range n)
  simp only [List.length_range, Bool.not_eq_true, Bool.decide_eq_false, ← funext h] at hsum
  exact Nat.eq_sub_of_add_eq' hsum.symm

theorem countP_range_contains {L : List Nat} {n : Nat} (hd : L.Nodup) (hlt : ∀ a ∈ L, a < n) :
    (List.range n).countP L.contains = L.length := by
  have hperm : ((List.range n).filter L.contains).Perm L :=
    (List.perm_ext_iff_of_nodup (List.nodup_range.filter _) hd).mpr fun a => by
      rw [List.mem_filter, List.mem_range, List.contains_iff_mem]
      exact and_iff_right_of_imp (hlt a)
  rw [List.countP_eq_length_filter, hperm.length_eq]

theorem countP_range_not_contains {L : List Nat} {n : Nat} (hd : L.Nodup) (hlt : ∀ a ∈ L, a < n) :
    (List.range n).countP (fun a => !L.contains a) = n - L.length := by
  rw [countP_range_of_eq_not (r := L.contains) n fun _ => rfl, countP_range_contains hd hlt]

/-! ## The counts of the table (R74) -/

/-- Word `k` of family `o`: its top nibble is `o`, its low byte and low nibble are those of `k`. -/
theorem toNat_familyWord {o k : Nat} (ho : o < 16) (hk : k < 4096) :
    (BitVec.ofNat 16 (4096 * o + k)).toNat / 4096 = o ∧ (BitVec.ofNat 16 (4096 * o + k)).toNat % 256 = k % 256 ∧
      (BitVec.ofNat 16 (4096 * o + k)).toNat % 16 = k % 16 := by
  rw [BitVec.toNat_ofNat]
  omega

/-- A line of the table that asks for the remainder by `n` alone names `c` words in each of the family's `m` blocks. -/
theorem countP_family {p : Word → Bool} {q : Nat → Bool} {o n m c : Nat} (hnm : n * m = 4096)
    (hp : ∀ k < 4096, p (BitVec.ofNat 16 (4096 * o + k)) = q (k % n)) (hc : (List.range n).countP q = c) :
    (List.range 4096).countP (fun k => p (BitVec.ofNat 16 (4096 * o + k))) = m * c := by
  rw [← hc, ← countP_range_mod, hnm]
  exact List.countP_congr fun k hk => by rw [hp k (List.mem_range.mp hk)]

theorem countP_badOp0 : (List.range 4096).countP (fun k => badOp0 (BitVec.ofNat 16 (4096 * 0x0 + k))) = 4094 := by
  refine countP_family (n := 4096) (m := 1) rfl (fun k hk => ?_)
    (countP_range_not_contains (L := [0xE0, 0xEE]) (by decide) (by decide))
  obtain ⟨hop, -, -⟩ := toNat_familyWord (o := 0x0) (by decide) hk
  have hw (c : Word) : BitVec.ofNat 16 k = c ↔ k = c.toNat := by
    rw [BitVec.toNat_eq, BitVec.toNat_ofNat, Nat.mod_eq_of_lt (by omega)]
  rw [badOp0, hop, Nat.mod_eq_of_lt hk]
  simp [bne, beq_eq_decide, hw]

theorem countP_badOp5or9 {o : Nat} (ho : o = 0x5 ∨ o = 0x9) :
    (List.range 4096).countP (fun k => badOp5or9 (BitVec.ofNat 16 (4096 * o + k))) = 3840 := by
  refine countP_family (n := 16) (m := 256) (q := fun r => r != 0) rfl (fun k hk => ?_) (c := 15) (by decide)
  obtain ⟨hop, -, hn⟩ := toNat_familyWord (o := o) (by omega) hk
  rw [badOp5or9, hop, hn]
  obtain rfl | rfl := ho <;> rfl

theorem countP_badOp8 : (List.range 4096).countP (fun k => badOp8 (BitVec.ofNat 16 (4096 * 0x8 + k))) = 1792 := by
  refine countP_family (n := 16) (m := 256) rfl (fun k hk => ?_)
    (countP_range_contains (L := [0x8, 0x9, 0xA, 0xB, 0xC, 0xD, 0xF]) (by decide) (by decide))
  obtain ⟨hop, -, hn⟩ := toNat_familyWord (o := 0x8) (by decide) hk
  rw [badOp8, hop, hn]
  rfl

theorem countP_badOpE : (List.range 4096).countP (fun k => badOpE (BitVec.ofNat 16 (4096 * 0xE + k))) = 4064 := by
  refine countP_family (n := 256) (m := 16) rfl (fun k hk => ?_)
    (countP_range_not_contains (L := [0x9E, 0xA1]) (by decide) (by decide))
  obtain ⟨hop, hkk, -⟩ := toNat_familyWord (o := 0xE) (by decide) hk
  rw [badOpE, hop, hkk]
  rfl

theorem countP_badOpF : (List.range 4096).countP (fun k => badOpF (BitVec.ofNat 16 (4096 * 0xF + k))) = 3952 := by
  refine countP_family (n := 256) (m := 16) rfl (fun k hk => ?_)
    (countP_range_not_contains (L := [0x07, 0x0A, 0x15, 0x18, 0x1E, 0x29, 0x33, 0x55, 0x65]) (by decide) (by decide))
  obtain ⟨hop, hkk, -⟩ := toNat_familyWord (o := 0xF) (by decide) hk
  rw [badOpF, hop, hkk]
  rfl

/-- The line of R74's table for a family: which of its words are unrecognised, and how many. -/
def tableLine : Nat → (Word → Bool) × Nat
  | 0x0 => (badOp0, 4094)
  | 0x5 => (badOp5or9, 3840)
  | 0x8 => (badOp8, 1792)
  | 0x9 => (badOp5or9, 3840)
  | 0xE => (badOpE, 4064)
  | 0xF => (badOpF, 3952)
  | _ => (fun _ => false, 0)

/-- A word is unrecognised exactly when its own family's line names it. -/
theorem not_recognised_eq_tableLine (w : Word) : (!recognised w) = (tableLine (w.toNat / 4096)).1 w := by
  unfold tableLine
  split
  case h_7 h0 h5 h8 h9 hE hF =>
    simp only [recognised, badOp0, badOp5or9, badOp8, badOpE, badOpF, beq_false_of_ne h0, beq_false_of_ne h5,
      beq_false_of_ne h8, beq_false_of_ne h9, beq_false_of_ne hE, beq_false_of_ne hF]
    rfl
  all_goals simp [recognised, badOp0, badOp5or9, badOp8, badOpE, badOpF, *]

theorem countP_tableLine (o : Nat) :
    (List.range 4096).countP (fun k => (tableLine o).1 (BitVec.ofNat 16 (4096 * o + k))) = (tableLine o).2 := by
  unfold tableLine
  split
  · exact countP_badOp0
  · exact countP_badOp5or9 (.inl rfl)
  · exact countP_badOp8
  · exact countP_badOp5or9 (.inr rfl)
  · exact countP_badOpE
  · exact countP_badOpF
  · simp

theorem countP_not_recognised : (List.range 65536).countP (fun k => !recognised (BitVec.ofNat 16 k)) = 21582 := by
  have hline : ∀ o ∈ Finset.range 16,
      (List.range 4096).countP (fun k => !recognised (BitVec.ofNat 16 (4096 * o + k))) = (tableLine o).2 := by
    intro o ho
    rw [← countP_tableLine]
    refine List.countP_congr fun k hk => ?_
    obtain ⟨hop, -, -⟩ := toNat_familyWord (Finset.mem_range.mp ho) (List.mem_range.mp hk)
    rw [not_recognised_eq_tableLine, hop]
  calc (List.range (4096 * 16)).countP (fun k => !recognised (BitVec.ofNat 16 k))
      = ∑ o ∈ Finset.range 16, (tableLine o).2 := (countP_range_mul _ 4096 16).trans (Finset.sum_congr rfl hline)
    _ = 21582 := by decide

theorem countP_recognised : (List.range 65536).countP (fun k => recognised (BitVec.ofNat 16 k)) = 43954 := by
  rw [countP_range_of_eq_not 65536 fun k => (Bool.not_not _).symm, countP_not_recognised]

end Sys2Proof
end

section
/-! SUPPORT. What a step of a running engine does, and the frame of what lands before it (30_encoding R70,
60_exceptions R261). -/

namespace Sys2Proof.Machine

variable {s : State} {i : Instr}

theorem frame_arrived (s : State) : Frame [.dt, .st, .tclk, .keys, .schedule] s s.arrived := by
  intro p hp; cases p <;> simp_all [Part.same]

theorem step_ok (hc : s.coreStatus = .running) (hd : decodeWord (s.fetch s.pc) = .ok i) :
    step s = exec i (s.arrived.setPc (s.pc + 2#12)) :=
  step_eq s ▸ executeOne_ok (s := s.arrived) hc hd

end Sys2Proof.Machine
end

section
/-! The obligations on the encoding and the step (30_encoding). -/

open Sys2Proof Sys2Proof.Machine

/-- Settles O1, from the round trip of each instruction's word; the word's two bytes are read back in order. -/
theorem decodeReadsBackEveryEncoding : Obligations.DecodeReadsBackEveryEncoding := by
  unfold Obligations.DecodeReadsBackEveryEncoding
  exact fun i rest => ⟨Laws.wellFormed_all i, decode_encodeBytes i rest⟩

/-- Settles O2, from the decoder's arms: each builds its instruction from the word's own fields. -/
theorem onlyItsOwnWordDecodesToAnInstruction : Obligations.OnlyItsOwnWordDecodesToAnInstruction := by
  unfold Obligations.OnlyItsOwnWordDecodesToAnInstruction
  exact fun w i h => encode_of_decodeWord h

/-- Settles O3: a word that decodes is an instruction's own, which no line of the table names; each line is counted as
the remainders it asks for, and the totals are the sums over the sixteen families. -/
theorem unrecognisedWordsAreExactlyTheTable : Obligations.UnrecognisedWordsAreExactlyTheTable := by
  unfold Obligations.UnrecognisedWordsAreExactlyTheTable
  refine ⟨fun w => decodeWord_of_recognised, fun w => decodeWord_of_not_recognised, ?_, ?_, ?_, ?_, ?_, ?_, ?_, ?_⟩
  · simpa using countP_badOp0
  · exact countP_badOp5or9 (o := 0x5) (.inl rfl)
  · exact countP_badOp8
  · exact countP_badOp5or9 (o := 0x9) (.inr rfl)
  · exact countP_badOpE
  · exact countP_badOpF
  · exact countP_not_recognised
  · exact countP_recognised

/-- Settles O4, by running the decoder on each of the nine words. -/
theorem sampleWordsDecode : Obligations.SampleWordsDecode := by
  unfold Obligations.SampleWordsDecode
  decide

/-- Settles O7: what lands changes neither the word at PC nor PC, so the engine runs the same instruction. -/
theorem stepRunsTheDecodedInstruction : Obligations.StepRunsTheDecodedInstruction := by
  unfold Obligations.StepRunsTheDecodedInstruction
  intro s i hc h
  obtain ⟨hd, -⟩ := decode_eq_ok_iff.mp h
  exact ⟨step_ok hc hd, frame_arrived s⟩

end

section
/-! SUPPORT. The registers after one write and after a result and its flag, and the ALU's numbers (41_alu R101 to
R112). -/

namespace Sys2Proof.Machine

/-! ## The registers after a write -/

section
variable (s : State)

theorem getV_setV_self (x : Nibble) (b : Byte) : (s.setV x b).getV x = b := by
  rw [getV_setV, if_pos rfl]

theorem getV_setV_of_ne {x r : Nibble} (b : Byte) (h : r ≠ x) : (s.setV x b).getV r = s.getV r := by
  rw [getV_setV, if_neg h]

/-- The flag is written last, so VF holds it even when it is the result's register too (R101). -/
theorem getV_setResultAndFlag_vf (x : Nibble) (b : Byte) (c : Bool) :
    (s.setResultAndFlag x b c).getV 0xF#4 = flagByte c :=
  getV_setV_self _ _ _

theorem getV_setResultAndFlag_result {x : Nibble} (b : Byte) (c : Bool) (h : x ≠ 0xF#4) :
    (s.setResultAndFlag x b c).getV x = b := by
  rw [setResultAndFlag_eq, getV_setV_of_ne _ _ h, getV_setV_self]

theorem getV_setResultAndFlag_of_ne {x r : Nibble} (b : Byte) (c : Bool) (hx : r ≠ x) (hf : r ≠ 0xF#4) :
    (s.setResultAndFlag x b c).getV r = s.getV r := by
  rw [setResultAndFlag_eq, getV_setV_of_ne _ _ hf, getV_setV_of_ne _ _ hx]

/-- A result and its flag in numbers, with the registers and the parts that keep their values. -/
theorem setResultAndFlag_spec (x : Nibble) {b : Byte} {c : Bool} {f n : Nat} (hf : (flagByte c).toNat = f)
    (hb : b.toNat = n) :
    ((s.setResultAndFlag x b c).getV 0xF#4).toNat = f ∧
      (x ≠ 0xF#4 → ((s.setResultAndFlag x b c).getV x).toNat = n) ∧
      (∀ r, r ≠ x → r ≠ 0xF#4 → (s.setResultAndFlag x b c).getV r = s.getV r) ∧
      Frame [.v] s (s.setResultAndFlag x b c) :=
  ⟨by rw [getV_setResultAndFlag_vf, hf], fun hx => by rw [getV_setResultAndFlag_result s b c hx, hb],
    fun _ => getV_setResultAndFlag_of_ne s b c, frame_setResultAndFlag s x b c⟩

end

/-! ## Flags and results as numbers -/

theorem carryOfAdd_toNat (a b : Byte) :
    (flagByte (carryOfAdd a b)).toNat = if 255 < a.toNat + b.toNat then 1 else 0 := by
  simp only [flagByte_toNat, carryOfAdd, decide_eq_true_eq]

/-- The flag of a subtraction is 1 exactly when it borrows nothing, equal operands included. -/
theorem notBorrow_toNat (a b : Byte) : (flagByte (notBorrow a b)).toNat = if b.toNat ≤ a.toNat then 1 else 0 := by
  simp only [flagByte_toNat, notBorrow, decide_eq_true_eq]

/-- A difference modulo 256, with 256 added first so that the natural subtraction never cuts off at 0. -/
theorem toNat_sub_byte (a b : Byte) : (a - b).toNat = (256 + a.toNat - b.toNat) % 256 := by
  have hb := b.isLt
  rw [BitVec.toNat_sub, ← Nat.sub_add_comm (Nat.le_of_lt hb)]

theorem toNat_halved (a : Byte) : (a >>> 1).toNat = a.toNat / 2 := by
  rw [BitVec.toNat_ushiftRight, Nat.shiftRight_eq_div_pow, pow_one]

theorem toNat_doubled (a : Byte) : (a <<< 1).toNat = 2 * a.toNat % 256 := by
  rw [BitVec.toNat_shiftLeft, Nat.shiftLeft_eq, pow_one, Nat.mul_comm]

end Sys2Proof.Machine
end

section
/-! The obligations on the ALU and register instructions (41_alu). -/

open Sys2Proof Sys2Proof.Machine

/-- Settles O14: each writes V[x] once, with the operation the library reads bit by bit. -/
theorem logicIsBitwiseWithoutFlag : Obligations.LogicIsBitwiseWithoutFlag := by
  unfold Obligations.LogicIsBitwiseWithoutFlag
  intro x y s
  have hkept (b : Byte) : (∀ r, r ≠ x → (s.setV x b).getV r = s.getV r) ∧ Frame [.v] s (s.setV x b) :=
    ⟨fun _ => getV_setV_of_ne s b, frame_setV s x b⟩
  refine ⟨⟨decodeWord_encode (.orReg x y), _, rfl, fun k => ?_, hkept _⟩,
    ⟨decodeWord_encode (.andReg x y), _, rfl, fun k => ?_, hkept _⟩,
    ⟨decodeWord_encode (.xorReg x y), _, rfl, fun k => ?_, hkept _⟩⟩
  · rw [getV_setV_self, BitVec.getLsbD_or]
  · rw [getV_setV_self, BitVec.getLsbD_and]
  · rw [getV_setV_self, BitVec.getLsbD_xor]

/-- Settles O15: the carry is the sum above 255, written after the sum. -/
theorem addRegisterSetsCarry : Obligations.AddRegisterSetsCarry := by
  unfold Obligations.AddRegisterSetsCarry
  exact fun x y s => ⟨decodeWord_encode (.addReg x y), _, rfl,
    setResultAndFlag_spec s x (carryOfAdd_toNat _ _) (BitVec.toNat_add _ _)⟩

/-- Settles O16: the not-borrow compares the old values, and is written after the difference. -/
theorem subRegisterSetsNotBorrow : Obligations.SubRegisterSetsNotBorrow := by
  unfold Obligations.SubRegisterSetsNotBorrow
  exact fun x y s => ⟨decodeWord_encode (.subReg x y), _, rfl,
    setResultAndFlag_spec s x (notBorrow_toNat _ _) (toNat_sub_byte _ _)⟩

/-- Settles O17: the y field names no operand, and the bit moved out is the remainder of the halving. -/
theorem shiftRightSetsOldBitZero : Obligations.ShiftRightSetsOldBitZero := by
  unfold Obligations.ShiftRightSetsOldBitZero
  exact fun x y s => ⟨decodeWord_encode (.shr x y), fun _ => rfl, _, rfl,
    setResultAndFlag_spec s x (shiftedOutRight_toNat _) (toNat_halved _)⟩

/-- Settles O18, as the subtraction of O16 with the operands exchanged. -/
theorem subnRegisterSetsNotBorrow : Obligations.SubnRegisterSetsNotBorrow := by
  unfold Obligations.SubnRegisterSetsNotBorrow
  exact fun x y s => ⟨decodeWord_encode (.subnReg x y), _, rfl,
    setResultAndFlag_spec s x (notBorrow_toNat _ _) (toNat_sub_byte _ _)⟩

/-- Settles O19: the y field names no operand, and the bit moved out is the one of weight 128. -/
theorem shiftLeftSetsOldBitSeven : Obligations.ShiftLeftSetsOldBitSeven := by
  unfold Obligations.ShiftLeftSetsOldBitSeven
  exact fun x y s => ⟨decodeWord_encode (.shl x y), fun _ => rfl, _, rfl,
    setResultAndFlag_spec s x (shiftedOutLeft_toNat _) (toNat_doubled _)⟩

/-- Settles O20: the mask clears every bit outside kk, whichever byte the count of draws selects. -/
theorem randomByteIsOneMaskedDraw : Obligations.RandomByteIsOneMaskedDraw := by
  unfold Obligations.RandomByteIsOneMaskedDraw
  intro x kk s
  refine ⟨decodeWord_encode (.rnd x kk), _, rfl, getV_setV _ _ _, fun k hk => ?_, rfl, exec_frame (i := .rnd x kk) rfl⟩
  rw [getV_setV_self, BitVec.getLsbD_and, hk, Bool.and_false]

/-- Settles O12: one register is written, from kk or from the old V[y]. -/
theorem loadImmediateAndCopyWriteVx : Obligations.LoadImmediateAndCopyWriteVx := by
  unfold Obligations.LoadImmediateAndCopyWriteVx
  exact fun x y kk s =>
    ⟨⟨decodeWord_encode (.ldImm x kk), _, rfl, getV_setV s x kk, frame_setV s x kk⟩,
      ⟨decodeWord_encode (.ldReg x y), _, rfl, getV_setV s x (s.getV y), frame_setV s x (s.getV y)⟩⟩

/-- Settles O13: one register is written, with a sum of bytes; VF is kept as every other register is. -/
theorem addImmediateWrapsWithoutFlag : Obligations.AddImmediateWrapsWithoutFlag := by
  unfold Obligations.AddImmediateWrapsWithoutFlag
  exact fun x kk s => ⟨decodeWord_encode (.addImm x kk), _, rfl, by rw [getV_setV_self, BitVec.toNat_add],
    fun _ => getV_setV_of_ne s _, frame_setV s x _⟩

end

section
/-! SUPPORT. Control transfer: the state after fault entry, a RET right after a push, a skip and a target as numbers,
the register skips' other words, and the instruction at PC (42_control_flow, 60_exceptions R232). -/

namespace Sys2Proof.Machine

variable (s : State)

theorem haltedAt_enterFault (f : FaultCondition) (w : Word) (pc0 : Address) :
    HaltedAt s (s.enterFault f w pc0) f.code w pc0 :=
  ⟨rfl, rfl, rfl, rfl, rfl, frame_enterFault s f w pc0⟩

/-! ## The stack after a CALL (42_control_flow R143, R144) -/

/-- A RET finds the slot the CALL pushed to, and takes SP and PC back: the pushed slot is all that is left of both. -/
theorem execRet_of_pushed (nnn a : Address) (h : s.sp.toNat < Config.stackDepth) :
    execRet ((((s.writeSlot s.sp s.pc).setSp (s.sp + 1#8)).setPc nnn).setPc a) = .next (s.writeSlot s.sp s.pc) := by
  have h16 : s.sp.toNat < 16 := h
  have h0 : s.sp + 1#8 ≠ 0#8 := by bv_omega
  have hsp : s.sp + 1#8 - 1#8 = s.sp := BitVec.add_sub_cancel _ _
  refine (execRet_slot h0 (a := s.pc) ?_).trans ?_
  · rw [setPc_sp, setPc_sp, setSp_sp, hsp]
    exact readSlot_writeSlot s h s.pc
  · rw [setPc_sp, setPc_sp, setSp_sp, hsp]
    rfl

/-! ## Targets as numbers (42_control_flow R141, R149) -/

/-- A skip on a condition, with PC as a number and the parts that keep their values. -/
theorem skipIf_spec {c : Bool} {p : Prop} [Decidable p] (h : c = true ↔ p) :
    (s.skipIf c).pc.toNat = (if p then (s.pc.toNat + 2) % 4096 else s.pc.toNat) ∧ Frame [.pc] s (s.skipIf c) := by
  refine ⟨?_, frame_skipIf s c⟩
  rw [skipIf_eq, setPc_pc, apply_ite BitVec.toNat, BitVec.toNat_add, if_congr h rfl rfl]
  rfl

theorem offsetTarget_toNat (nnn : Address) :
    (s.offsetTarget nnn).toNat = (nnn.toNat + (s.getV 0x0#4).toNat) % 4096 := by
  rw [State.offsetTarget, BitVec.toNat_add, vAsAddress_toNat]

/-! ## The instruction at PC (70_reset R291) -/

variable {s}

theorem nextInstr_eq_some {i : Instr} :
    s.nextInstr = some i ↔ s.coreStatus = .running ∧ decodeWord (s.fetch s.pc) = .ok i := by
  unfold State.nextInstr
  cases s.coreStatus <;> cases decodeWord (s.fetch s.pc) <;> simp [Except.toOption]

theorem atSelfJump_iff :
    s.atSelfJump = true ↔ s.coreStatus = .running ∧ decodeWord (s.fetch s.pc) = .ok (.jp s.pc) := by
  rw [State.atSelfJump, beq_iff_eq, nextInstr_eq_some]

end Sys2Proof.Machine

namespace Sys2Proof

/-- The register skips' families hold one instruction a register pair: a low nibble other than 0 is unrecognised (R147,
R148, 30_encoding R74). -/
theorem decodeWord_registerSkip_error {o : Nibble} (ho : o = 0x5#4 ∨ o = 0x9#4) (x y : Nibble) {n : Nibble}
    (hn : n ≠ 0x0#4) : decodeWord (o ++ x ++ y ++ n) = .error (.unrecognizedOpcode (o ++ x ++ y ++ n)) := by
  obtain rfl | rfl := ho <;> simp [decodeWord, hn]

end Sys2Proof
end

section
/-! The obligations on control transfer (42_control_flow). -/

open Sys2Proof Sys2Proof.Machine

/-- Settles O22: SP below 16 names a slot to push to; SP = 16 names none, and the CALL is taken back. -/
theorem callPushesOrOverflows : Obligations.CallPushesOrOverflows := by
  unfold Obligations.CallPushesOrOverflows
  intro nnn s
  refine ⟨decodeWord_encode (.call nnn), fun hlt => ?_, fun h16 => ?_⟩
  · have hcall := execCall_push nnn hlt
    have hsp : (s.sp + 1#8).toNat = s.sp.toNat + 1 := by bv_omega
    have hframe := ((frame_writeSlot s s.sp s.pc).trans (frame_setSp _ (s.sp + 1#8))).trans (frame_setPc _ nnn)
    exact ⟨_, hcall, rfl, hsp, readSlot_writeSlot s hlt s.pc, fun k hk => readSlot_writeSlot_ne s hk s.pc,
      hframe.mono (by simp)⟩
  · exact ⟨_, execCall_overflow nnn h16, haltedAt_enterFault s .stackOverflow _ _⟩

/-- Settles O23: SP in 1..16 has a slot below it, whose value is copied to PC; SP = 0 has none, and the RET is taken
back. -/
theorem retPopsOrUnderflows : Obligations.RetPopsOrUnderflows := by
  unfold Obligations.RetPopsOrUnderflows
  intro s
  refine ⟨decodeWord_encode .ret, fun h0 h16 => ?_, fun h0 => ?_⟩
  · obtain ⟨a, hslot, hsp, hret⟩ := execRet_pop h0 h16
    have hframe := (frame_setSp s (s.sp - 1#8)).trans (frame_setPc _ a)
    exact ⟨_, hret, hsp, hslot, hframe.mono (by simp)⟩
  · exact ⟨_, execRet_underflow h0, haltedAt_enterFault s .stackUnderflow _ _⟩

/-- Settles O25: together the CALL and the RET leave the pushed slot and nothing else. -/
theorem retComesBackFromCall : Obligations.RetComesBackFromCall := by
  unfold Obligations.RetComesBackFromCall
  intro nnn a s h
  exact ⟨_, _, execCall_push nnn h, execRet_of_pushed s nnn a h, rfl, rfl,
    fun k hk => readSlot_writeSlot_ne s hk s.pc, frame_writeSlot s s.sp s.pc⟩

/-- Settles O26: each is one skip, on the condition its rule names. -/
theorem compareSkipsAddTwoToPc : Obligations.CompareSkipsAddTwoToPc := by
  unfold Obligations.CompareSkipsAddTwoToPc
  intro x y n kk s
  exact ⟨fun hn =>
      ⟨decodeWord_registerSkip_error (.inl rfl) x y hn, decodeWord_registerSkip_error (.inr rfl) x y hn⟩,
    ⟨decodeWord_encode (.seImm x kk), _, rfl, skipIf_spec s beq_iff_eq⟩,
    ⟨decodeWord_encode (.sneImm x kk), _, rfl, skipIf_spec s bne_iff_ne⟩,
    ⟨decodeWord_encode (.seReg x y), _, rfl, skipIf_spec s beq_iff_eq⟩,
    ⟨decodeWord_encode (.sneReg x y), _, rfl, skipIf_spec s bne_iff_ne⟩⟩

/-- Settles O21: PC is written, with nnn as it stands in the word. -/
theorem jumpWritesPc : Obligations.JumpWritesPc := by
  unfold Obligations.JumpWritesPc
  exact fun nnn s => ⟨decodeWord_encode (.jp nnn), _, rfl, rfl, frame_setPc s nnn⟩

/-- Settles O27: PC is written, with a sum of addresses; no field of nnn names a register. -/
theorem offsetJumpAddsV0 : Obligations.OffsetJumpAddsV0 := by
  unfold Obligations.OffsetJumpAddsV0
  exact fun nnn s => ⟨decodeWord_encode (.jpV0 nnn), _, rfl, offsetTarget_toNat s nnn, frame_setPc s _⟩

/-- Settles O60: the jump takes the step's advance of PC back, and what lands before it moves neither PC nor the word
there. -/
theorem selfJumpChangesNothingOfTheEngine : Obligations.SelfJumpChangesNothingOfTheEngine := by
  unfold Obligations.SelfJumpChangesNothingOfTheEngine
  intro s h
  obtain ⟨hrunning, hjump⟩ := atSelfJump_iff.mp h
  have hstep : step s = .next s.arrived := step_ok hrunning hjump
  have hagain : s.arrived.atSelfJump = true := atSelfJump_iff.mpr ⟨hrunning, hjump⟩
  exact ⟨hstep, hagain, frame_arrived s⟩

end

section
/-! SUPPORT. The digits and the advanced I as numbers, and what Fx33, Fx55 and Fx65 leave in memory and in the registers
(43_index_memory R171 to R175). -/

namespace Sys2Proof.Machine

/-! ## Operands as numbers -/

theorem hundreds_toNat (v : Byte) : (hundreds v).toNat = v.toNat / 100 :=
  Nat.mod_eq_of_lt (by omega)

theorem tens_toNat (v : Byte) : (tens v).toNat = v.toNat / 10 % 10 :=
  Nat.mod_eq_of_lt (by omega)

theorem ones_toNat (v : Byte) : (ones v).toNat = v.toNat % 10 :=
  Nat.mod_eq_of_lt (by omega)

theorem ea_rangeCount_toNat (s : State) (x : Nibble) :
    (s.ea (rangeCount x)).toNat = (s.i.toNat + x.toNat + 1) % 4096 := by
  rw [State.ea, rangeCount, BitVec.toNat_add, BitVec.toNat_ofNat, Nat.add_mod_mod, Nat.add_assoc]

/-! ## Memory and registers after the instruction -/

variable {s t : State} {x : Nibble}

/-- Every byte after Fx33, the latest of its three writes looked at first (R173). -/
theorem memRead_of_ldB (hm : Memory.wf s.mem) (h : exec (.ldB x) s = .next t) (a : Address) :
    t.memRead a =
      if a = s.i + 2#12 then ones (s.getV x)
      else if a = s.i + 1#12 then tens (s.getV x)
      else if a = s.i then hundreds (s.getV x)
      else s.memRead a := by
  cases h
  have hm0 := wf_memWrite hm (s.ea 0) (hundreds (s.getV x))
  have hm1 := wf_memWrite hm0 (s.ea 1) (tens (s.getV x))
  have hea0 : s.ea 0 = s.i := BitVec.add_zero _
  rw [memRead_memWrite hm1, memRead_memWrite hm0, memRead_memWrite hm, hea0]
  rfl

/-- The byte that Fx55 stores for a register it names (R174). -/
theorem memRead_of_storeRegs_reg (hm : Memory.wf s.mem) (h : exec (.storeRegs x) s = .next t) {r : Nibble}
    (hr : r.toNat ≤ x.toNat) : t.memRead (s.i + BitVec.ofNat 12 r.toNat) = s.getV r := by
  rw [memRead_of_storeRegs hm h hr, BitVec.ofNat_toNat, BitVec.setWidth_eq]

/-- Fx55 leaves every byte that is at no named register's offset from I (R174): an offset below `x + 1` is a register's
number. -/
theorem memRead_of_storeRegs_outside (hm : Memory.wf s.mem) (h : exec (.storeRegs x) s = .next t) {a : Address}
    (ha : ∀ r : Nibble, r.toNat ≤ x.toNat → a ≠ s.i + BitVec.ofNat 12 r.toNat) : t.memRead a = s.memRead a := by
  cases h
  have hx : x.toNat < 16 := x.isLt
  have hout : ¬ (a - s.i).toNat < rangeCount x := fun hlt => by
    have hle : (a - s.i).toNat ≤ x.toNat := Nat.le_of_lt_succ hlt
    have hreg : (BitVec.ofNat 4 (a - s.i).toNat).toNat = (a - s.i).toNat := Nat.mod_eq_of_lt (by omega)
    refine ha (BitVec.ofNat 4 (a - s.i).toNat) (hreg.trans_le hle) ?_
    rw [hreg, BitVec.ofNat_toNat, BitVec.setWidth_eq, add_sub_cancel]
  rw [setI_memRead, memRead_storeRange hm s.i (n := rangeCount x) hx, if_neg hout]

/-- Fx65 loads the registers up to V[x], and keeps the others (R175). -/
theorem getV_of_loadRegs (h : exec (.loadRegs x) s = .next t) (r : Nibble) :
    t.getV r = if r.toNat ≤ x.toNat then s.memRead (s.i + BitVec.ofNat 12 r.toNat) else s.getV r := by
  cases h
  have hx : x.toNat < 16 := x.isLt
  rw [setI_getV, loadRange_getV s s.i (n := rangeCount x) hx]
  exact if_congr Nat.lt_succ_iff rfl rfl

end Sys2Proof.Machine
end

section
/-! The obligations on the index register and memory (43_index_memory). -/

open Sys2Proof Sys2Proof.Machine

/-- Settles O28: I is written, with nnn, with a sum of addresses, or with a product too small to wrap. -/
theorem indexRegisterInstructionsWriteI : Obligations.IndexRegisterInstructionsWriteI := by
  unfold Obligations.IndexRegisterInstructionsWriteI
  intro nnn x s
  have hsum : (s.i + s.vAsAddress x).toNat = (s.i.toNat + (s.getV x).toNat) % 4096 := by
    rw [BitVec.toNat_add, vAsAddress_toNat]
  exact ⟨⟨decodeWord_encode (.ldI nnn), _, rfl, rfl, frame_setI s nnn⟩,
    ⟨decodeWord_encode (.addI x), _, rfl, hsum, frame_setI s _⟩,
    ⟨decodeWord_encode (.ldF x), _, rfl, glyphAddress_toNat s x, frame_setI s _⟩⟩

/-- Settles O29: I, I + 1 and I + 2 differ modulo 4096, so no digit overwrites another. -/
theorem bcdStoresThreeDigits : Obligations.BcdStoresThreeDigits := by
  unfold Obligations.BcdStoresThreeDigits
  intro x s hm
  have h01 : s.i ≠ s.i + 1#12 := by bv_omega
  have h02 : s.i ≠ s.i + 2#12 := by bv_omega
  have h12 : s.i + 1#12 ≠ s.i + 2#12 := by bv_omega
  have hread := memRead_of_ldB (x := x) hm rfl
  refine ⟨decodeWord_encode (.ldB x), _, rfl, ?_, ?_, ?_, fun a h0 h1 h2 => ?_, exec_frame (i := .ldB x) rfl⟩
  · rw [hread, if_neg h02, if_neg h01, if_pos rfl, hundreds_toNat]
  · rw [hread, if_neg h12, if_pos rfl, tens_toNat]
  · rw [hread, if_pos rfl, ones_toNat]
  · rw [hread, if_neg h2, if_neg h1, if_neg h0]

/-- Settles O30, from the bytes at the named registers' offsets and the bytes at none. -/
theorem storeRangeWritesVZeroToVx : Obligations.StoreRangeWritesVZeroToVx := by
  unfold Obligations.StoreRangeWritesVZeroToVx
  exact fun x s hm => ⟨decodeWord_encode (.storeRegs x), _, rfl, ea_rangeCount_toNat s x,
    fun _ => memRead_of_storeRegs_reg hm rfl, fun _ => memRead_of_storeRegs_outside hm rfl,
    exec_frame (i := .storeRegs x) rfl⟩

/-- Settles O31, from the registers after the load. -/
theorem loadRangeReadsVZeroToVx : Obligations.LoadRangeReadsVZeroToVx := by
  unfold Obligations.LoadRangeReadsVZeroToVx
  exact fun x s => ⟨decodeWord_encode (.loadRegs x), _, rfl, ea_rangeCount_toNat s x, getV_of_loadRegs rfl,
    exec_frame (i := .loadRegs x) rfl⟩

/-- Settles O32: the load takes no register's old value, and reads the bytes that the store left. -/
theorem storeThenLoadRangeRoundTrips : Obligations.StoreThenLoadRangeRoundTrips := by
  unfold Obligations.StoreThenLoadRangeRoundTrips
  intro x junk s hm
  refine ⟨_, _, rfl, rfl, rfl, fun r hr => ?_⟩
  rw [getV_of_loadRegs (x := x) rfl, if_pos hr]
  exact memRead_of_storeRegs_reg hm rfl hr

end

section
/-! The obligation on the timer instructions (44_timer_insns). -/

open Sys2Proof Sys2Proof.Machine

/-- Settles O34: Fx07 is one register write of the counter's value, Fx15 and Fx18 are one counter load each. -/
theorem timerInstructionsMoveTheCounters : Obligations.TimerInstructionsMoveTheCounters := by
  unfold Obligations.TimerInstructionsMoveTheCounters
  intro x s
  exact ⟨⟨decodeWord_encode (.ldVxDT x), _, rfl, getV_setV s x s.dt, frame_setV s x s.dt⟩,
    ⟨decodeWord_encode (.ldDTVx x), _, rfl, loadDT_dt s (s.getV x), frame_loadDT s (s.getV x)⟩,
    ⟨decodeWord_encode (.ldSTVx x), _, rfl, loadST_st s (s.getV x), frame_loadST s (s.getV x)⟩⟩

end

section
/-! SUPPORT. The pixels under the 1 bits of a sprite read from memory, and the grid and the flag that Dxyn leaves (45_display
R201 to R203). -/

namespace Sys2Proof.Machine

/-! ## Flags and pixels as numbers -/

theorem flagByte_eq_one_iff {c : Bool} : flagByte c = 1#8 ↔ c = true := by
  cases c <;> decide

theorem flagByte_eq_zero_iff {c : Bool} : flagByte c = 0#8 ↔ c = false := by
  cases c <;> decide

theorem eq_spritePixel_iff {x8 y8 : Byte} {r c : Nat} {p : Pixel} :
    p = spritePixel x8 y8 r c ↔ p.1.val = (x8.toNat + c) % 64 ∧ p.2.val = (y8.toNat + r) % 32 := by
  rw [Prod.ext_iff, Fin.ext_iff, Fin.ext_iff]
  rfl

/-! ## The rows a draw reads from memory -/

section
variable (s : State) (a : Address) (n : Nibble) {x8 y8 : Byte}

/-- A draw has at most 15 rows, so they do not wrap onto one another. -/
theorem readBytes_nibble_length_le : (s.readBytes a n.toNat).length ≤ 32 := by
  have hn : n.toNat < 16 := n.isLt
  rw [readBytes_length]
  omega

theorem mem_spriteHits_readBytes {m : Nat} {q : Pixel} :
    q ∈ spriteHits x8 y8 0 (s.readBytes a m) ↔
      ∃ r < m, ∃ c < 8, (s.memRead (a + BitVec.ofNat 12 r)).getLsbD (7 - c) = true ∧ q = spritePixel x8 y8 r c := by
  simp only [mem_spriteHits, Nat.zero_add]
  constructor
  · rintro ⟨r, row, hrow, hbit⟩
    have hr : r < m := readBytes_length s a m ▸ (List.getElem?_eq_some_iff.mp hrow).1
    obtain rfl := Option.some.inj ((readBytes_getElem s a m r hr).symm.trans hrow)
    exact ⟨r, hr, hbit⟩
  · rintro ⟨r, hr, hbit⟩
    exact ⟨r, _, readBytes_getElem s a m r hr, hbit⟩

/-- The pixel under a bit is hit exactly when that bit is 1: no other bit of the draw lands there (R202). -/
theorem spritePixel_mem_spriteHits_iff {r c : Nat} (hr : r < n.toNat) (hc : c < 8) :
    spritePixel x8 y8 r c ∈ spriteHits x8 y8 0 (s.readBytes a n.toNat) ↔
      (s.memRead (a + BitVec.ofNat 12 r)).getLsbD (7 - c) = true := by
  have hn : n.toNat < 16 := n.isLt
  rw [mem_spriteHits_readBytes]
  constructor
  · rintro ⟨r', hr', c', hc', hbit, hsame⟩
    obtain ⟨rfl, rfl⟩ := spritePixel_inj (by omega) (by omega) (by omega) (by omega) hsame
    exact hbit
  · exact fun hbit => ⟨r, hr, c, hc, hbit, rfl⟩

end

/-! ## The state after Dxyn -/

section
variable {s t : State} {x y n : Nibble} (h : exec (.drw x y n) s = .next t)
include h

theorem display_of_drw :
    t.display = Grid.draw s.display (s.getV x) (s.getV y) (s.readBytes s.i n.toNat) := by
  cases h
  rfl

theorem vf_of_drw :
    t.getV 0xF#4 = flagByte (Grid.collides s.display (s.getV x) (s.getV y) (s.readBytes s.i n.toNat)) := by
  cases h
  exact getV_setV_self _ _ _

theorem getV_of_drw_of_ne {r : Nibble} (hr : r ≠ 0xF#4) : t.getV r = s.getV r := by
  cases h
  exact getV_setV_of_ne _ _ hr

theorem readBytes_of_drw (a : Address) (m : Nat) : t.readBytes a m = s.readBytes a m :=
  readBytes_congr (exec_frame h .mem (by simp [Instr.writes])) a m

/-- The pixel under a sprite bit is XORed with it (R202). -/
theorem lit_of_drw_spritePixel {r c : Nat} (hr : r < n.toNat) (hc : c < 8) :
    Grid.lit t.display (spritePixel (s.getV x) (s.getV y) r c) =
      (Grid.lit s.display (spritePixel (s.getV x) (s.getV y) r c) ^^
        (s.memRead (s.i + BitVec.ofNat 12 r)).getLsbD (7 - c)) := by
  rw [display_of_drw h, lit_draw _ _ _ (readBytes_nibble_length_le s s.i n)]
  simp only [spritePixel_mem_spriteHits_iff s s.i n hr hc, Bool.decide_eq_true]

/-- A pixel under no sprite bit keeps (R202). -/
theorem lit_of_drw_outside {p : Pixel}
    (hp : ∀ r c, r < n.toNat → c < 8 → p ≠ spritePixel (s.getV x) (s.getV y) r c) :
    Grid.lit t.display p = Grid.lit s.display p := by
  have hmiss : p ∉ spriteHits (s.getV x) (s.getV y) 0 (s.readBytes s.i n.toNat) := fun hhit => by
    obtain ⟨r, hr, c, hc, -, hsame⟩ := (mem_spriteHits_readBytes s s.i).mp hhit
    exact hp r c hr hc hsame
  rw [display_of_drw h, lit_draw _ _ _ (readBytes_nibble_length_le s s.i n), decide_eq_false hmiss, Bool.xor_false]

/-- VF is 1 exactly when some lit pixel became unlit (R203). -/
theorem vf_of_drw_eq_one_iff :
    t.getV 0xF#4 = 1#8 ↔ ∃ p, Grid.lit s.display p = true ∧ Grid.lit t.display p = false := by
  rw [vf_of_drw h, flagByte_eq_one_iff, collides_iff _ _ _ (readBytes_nibble_length_le s s.i n), display_of_drw h]

/-- VF is 0 exactly when every lit pixel stayed lit (R203). -/
theorem vf_of_drw_eq_zero_iff :
    t.getV 0xF#4 = 0#8 ↔ ∀ p, Grid.lit s.display p = true → Grid.lit t.display p = true := by
  rw [vf_of_drw h, flagByte_eq_zero_iff, ← Bool.not_eq_true, collides_iff _ _ _ (readBytes_nibble_length_le s s.i n),
    ← display_of_drw h]
  simp only [not_exists, not_and, Bool.not_eq_false]

end

end Sys2Proof.Machine
end

section
/-! The obligations on the display (45_display). -/

open Sys2Proof Sys2Proof.Machine

/-- Settles O36: with at most 15 rows of 8 bits each pixel lies under one bit of the sprite at most, which it is XORed
with. -/
theorem drawXorsTheSpriteAndReportsCollision : Obligations.DrawXorsTheSpriteAndReportsCollision := by
  unfold Obligations.DrawXorsTheSpriteAndReportsCollision
  intro x y n s
  have hn : n.toNat < 16 := n.isLt
  have hdrw : exec (.drw x y n) s = .next _ := rfl
  refine ⟨decodeWord_encode (.drw x y n), fun r c r' c' hr hc hr' hc' hcol hrow => ?_, _, hdrw,
    fun p r c hr hc hcol hrow => ?_, fun p hp => ?_, (vf_of_drw_eq_one_iff hdrw).mpr, (vf_of_drw_eq_zero_iff hdrw).mpr,
    fun _ => getV_of_drw_of_ne hdrw, exec_frame hdrw⟩
  · omega
  · obtain rfl := eq_spritePixel_iff.mpr ⟨hcol, hrow⟩
    exact lit_of_drw_spritePixel hdrw hr hc
  · exact lit_of_drw_outside hdrw fun r c hr hc hsame => hp r c hr hc (eq_spritePixel_iff.mp hsame)

/-- Settles O37: the first draw leaves the coordinates, I and memory, so the second draws the same sprite at the same
place; the pixels it turns off are those that the first turned on. -/
theorem drawingTwiceRestoresTheGrid : Obligations.DrawingTwiceRestoresTheGrid := by
  unfold Obligations.DrawingTwiceRestoresTheGrid
  intro x y n s hx hy
  obtain ⟨t, hfirst⟩ : ∃ t, exec (.drw x y n) s = .next t := ⟨_, rfl⟩
  obtain ⟨u, hsecond⟩ : ∃ u, exec (.drw x y n) t = .next u := ⟨_, rfl⟩
  have hi : t.i = s.i := exec_frame hfirst .i (by simp [Instr.writes])
  have hrestored : u.display = s.display := by
    rw [display_of_drw hsecond, getV_of_drw_of_ne hfirst hx, getV_of_drw_of_ne hfirst hy, readBytes_of_drw hfirst, hi,
      display_of_drw hfirst, draw_draw _ _ _ (readBytes_nibble_length_le s s.i n)]
  refine ⟨t, u, hfirst, hsecond, hrestored, ?_⟩
  rw [vf_of_drw_eq_one_iff hsecond, hrestored]
  exact exists_congr fun _ => and_comm

/-- Settles O35: the display becomes the blank grid, and no other part is written. -/
theorem clearUnlightsEveryPixel : Obligations.ClearUnlightsEveryPixel := by
  unfold Obligations.ClearUnlightsEveryPixel
  exact fun s => ⟨decodeWord_encode .cls, _, rfl, lit_blank, frame_setDisplay s Grid.blank⟩

end

section
/-! SUPPORT. The key an Ex9E or ExA1 names, and what Fx0A answers with no key and with a lowest key pressed (46_keyboard
R217, R218). -/

namespace Sys2Proof.Machine

variable {s : State} {x k : Nibble}

theorem keyIndex_eq_of_toNat (hk : k.toNat = (s.getV x).toNat % 16) : s.keyIndex x = k :=
  BitVec.eq_of_toNat_eq ((keyIndex_toNat s x).trans hk.symm)

theorem exec_ldVxK (x : Nibble) (s : State) : exec (.ldVxK x) s = .next (s.waitKey x s.firstPressed) := rfl

theorem exec_ldVxK_of_no_key (x : Nibble) (h : ∀ k, s.keyPressed k = false) :
    exec (.ldVxK x) s = .next (s.setPc (s.pc - 2#12)) := by
  rw [exec_ldVxK, (firstPressed_none s).mpr h, State.waitKey, rewindPc_eq]

theorem exec_ldVxK_of_lowest_key (x : Nibble) (hk : s.keyPressed k = true)
    (hlow : ∀ j : Nibble, j.toNat < k.toNat → s.keyPressed j = false) :
    exec (.ldVxK x) s = .next (s.setV x (k.zeroExtend 8)) := by
  rw [exec_ldVxK, (firstPressed_some s).mpr ⟨hk, hlow⟩, State.waitKey]

/-- The rewind takes the step's advance back, wherever PC is: both wrap. -/
theorem exec_ldVxK_of_no_key_advanced (x : Nibble) (h : ∀ k, s.keyPressed k = false) :
    exec (.ldVxK x) (s.setPc (s.pc + 2#12)) = .next s := by
  have hback : s.pc + 2#12 - 2#12 = s.pc := BitVec.add_sub_cancel _ _
  have hnone : ∀ k, (s.setPc (s.pc + 2#12)).keyPressed k = false := h
  rw [exec_ldVxK_of_no_key x hnone, setPc_setPc, setPc_pc, hback, setPc_self]

end Sys2Proof.Machine
end

section
/-! The obligations on the keyboard instructions (46_keyboard). -/

open Sys2Proof Sys2Proof.Machine

/-- Settles O38: each is one skip, on the key that the low nibble of V[x] names being pressed or not. -/
theorem keySkipsReadTheNamedKey : Obligations.KeySkipsReadTheNamedKey := by
  unfold Obligations.KeySkipsReadTheNamedKey
  intro x k s hk
  obtain rfl := keyIndex_eq_of_toNat hk
  have hnot : (!s.keyPressed (s.keyIndex x)) = true ↔ ¬ s.keyPressed (s.keyIndex x) = true := by simp
  refine ⟨⟨decodeWord_encode (.skp x), _, rfl, skipIf_spec s Iff.rfl⟩, decodeWord_encode (.sknp x), _, rfl, ?_⟩
  simpa only [ite_not] using skipIf_spec s hnot

/-- Settles O39: one look at the keyboard finds no key, and PC is written, or the lowest key, and V[x] is written. -/
theorem waitKeyTakesTheLowestKeyOrRewinds : Obligations.WaitKeyTakesTheLowestKeyOrRewinds := by
  unfold Obligations.WaitKeyTakesTheLowestKeyOrRewinds
  intro x s
  refine ⟨decodeWord_encode (.ldVxK x), fun hnone => ?_, fun k hk hlow => ?_⟩
  · exact ⟨_, exec_ldVxK_of_no_key x hnone, rfl, frame_setPc s _⟩
  · have hval : ((s.setV x (k.zeroExtend 8)).getV x).toNat = k.toNat := by
      rw [getV_setV_self, BitVec.toNat_setWidth_of_le (by decide)]
    exact ⟨_, exec_ldVxK_of_lowest_key x hk hlow, hval, fun _ => getV_setV_of_ne s _, frame_setV s x _⟩

/-- Settles O40: the step runs Fx0A on the arrived state with PC advanced, and the rewind takes the advance back. -/
theorem waitKeyStepRepeatsWhileNoKey : Obligations.WaitKeyStepRepeatsWhileNoKey := by
  unfold Obligations.WaitKeyStepRepeatsWhileNoKey
  intro x s hrunning hdecode hnone
  exact (step_ok hrunning hdecode).trans (exec_ldVxK_of_no_key_advanced x hnone)

end

section
/-! SUPPORT. The faults: which `executeOne` halts a running engine, and with which record (60_exceptions R230 to
R238). -/

namespace Sys2Proof.Machine

variable {s t : State} {i : Instr}

theorem core_not_mem_writes (hcall : ∀ nnn, i ≠ .call nnn) (hret : i ≠ .ret) : Part.core ∉ i.writes := by
  cases i with
  | call nnn => exact absurd rfl (hcall nnn)
  | ret => exact absurd rfl hret
  | _ => simp [Instr.writes]

/-- Only CALL and RET look for a stack slot, so every other instruction answers a next state, whatever SP is. -/
theorem exec_answers_of_not_call_ret (s : State) (hcall : ∀ nnn, i ≠ .call nnn) (hret : i ≠ .ret) :
    ∃ t, exec i s = .next t := by
  cases i with
  | call nnn => exact absurd rfl (hcall nnn)
  | ret => exact absurd rfl hret
  | _ => exact ⟨_, rfl⟩

/-- An instruction that halts a running engine is a CALL at SP = 16 or a RET at SP = 0, and enters that fault with the
fetched word and its address (R232, R235, R236). -/
theorem exec_halts (hc : s.coreStatus = .running) (hd : decodeWord (s.fetch s.pc) = .ok i)
    (h : exec i s.advancePc = .next t) (hh : t.coreStatus = .halted) :
    (∃ nnn, i = .call nnn ∧ s.sp = 16#8 ∧ t = s.enterFault .stackOverflow (s.fetch s.pc) s.pc) ∨
    (i = .ret ∧ s.sp = 0#8 ∧ t = s.enterFault .stackUnderflow (s.fetch s.pc) s.pc) := by
  have hword := encode_of_decodeWord hd
  have hkept : t.coreStatus ≠ s.coreStatus := by rw [hh, hc]; nofun
  by_cases hcore : Part.core ∈ i.writes
  · cases i with
    | call nnn =>
      obtain ⟨hsp, rfl⟩ | ⟨-, rfl⟩ := execCall_next h
      · exact .inl ⟨nnn, rfl, hsp, by rw [advancePc_enterFault, hword]⟩
      · exact absurd rfl hkept
    | ret =>
      obtain ⟨hsp, rfl⟩ | ⟨-, a, -, rfl⟩ := execRet_next h
      · exact .inr ⟨rfl, hsp, by rw [advancePc_enterFault, hword]⟩
      · exact absurd rfl hkept
    | _ => simp [Instr.writes] at hcore
  · obtain ⟨hstatus, -⟩ := exec_frame h .core hcore
    exact absurd hstatus hkept

theorem step_unrecognised (hc : s.coreStatus = .running) (hw : recognised (s.fetch s.pc) = false) :
    step s = .next (s.arrived.enterFault .unrecognizedOpcode (s.fetch s.pc) s.pc) :=
  step_eq s ▸ executeOne_unrecognised (s := s.arrived) hc (decodeWord_of_not_recognised hw)

end Sys2Proof.Machine
end

section
/-! SUPPORT. What no engine step writes: the clock's control state, the keys, and the record of the schedule
(60_exceptions R246, R256, R261). -/

namespace Sys2Proof.Machine

variable {s t : State}

/-- The parts the engine may write. -/
def engineParts : List Part := [.v, .i, .pc, .sp, .stack, .dt, .st, .mem, .core, .display, .draws]

theorem writes_subset_engineParts (i : Instr) : i.writes ⊆ engineParts := by
  cases i <;> simp [Instr.writes, engineParts]

theorem exec_frame_engineParts {i : Instr} (h : exec i s = .next t) : Frame engineParts s t :=
  (exec_frame h).mono (writes_subset_engineParts i)

theorem executeOne_frame_engineParts (h : s.executeOne = .next t) : Frame engineParts s t := by
  obtain ⟨-, he⟩ | ⟨-, -, he⟩ | ⟨-, i, -, he⟩ := executeOne_cases s <;> rw [he] at h
  · cases h
    exact Frame.refl _ s
  · cases h
    exact (frame_enterFault s _ _ _).mono (by simp [engineParts])
  · have hadvance := (frame_setPc s (s.pc + 2#12)).trans (exec_frame_engineParts h)
    exact hadvance.mono (by simp [engineParts])

/-- A step leaves the clock's control state as it found it on arrival. -/
theorem step_tclkState (h : step s = .next t) : t.tclkState = s.arrived.tclkState :=
  (executeOne_frame_engineParts (step_eq s ▸ h) .tclk (by decide)).1

/-! ## The schedule (entry 5) -/

theorem arrival_zero (s : State) : s.arrival 0 = s.landing := by
  unfold State.arrival State.landing
  cases s.pending <;> rfl

/-- A step takes the first arrival, and the others come one step sooner. -/
theorem arrival_of_step (h : step s = .next t) : t.arrival = fun k => s.arrival (k + 1) := by
  obtain ⟨hslot, hpending⟩ := executeOne_frame_engineParts (step_eq s ▸ h) .schedule (by decide)
  funext k
  rw [State.arrival, State.arrival, hslot, hpending, arrived_slot, arrived_pending, List.getElem?_tail, Nat.add_assoc,
    Nat.add_comm 1 k]

/-- The machine's own run is the run under what its state says arrives. -/
theorem core_run_eq_runWith (n : Nat) (s : State) : Sys2Proof.core.run n s = runWith s.arrival n s := by
  induction n generalizing s with
  | zero => rfl
  | succ n ih =>
    have hfirst : s.stepWith (s.arrival 0) = step s := by rw [arrival_zero]; rfl
    rw [runWith_succ, hfirst]
    cases hstep : step s with
    | next t => rw [core_run_next n hstep, ih t, arrival_of_step hstep]
    | fault f => exact core_run_fault n hstep
    | refused r => exact core_run_refused n hstep

end Sys2Proof.Machine
end

section
/-! SUPPORT. The transactions of the timer clock and the host as updates of the state (60_exceptions R241 to R248). -/

namespace Sys2Proof.Machine

variable {s : State}

@[simp] theorem timerGet_timerLoad (s : State) (T : TimerId) (b : Byte) : (s.timerLoad T b).timerGet T = b := by
  cases T <;> rfl

@[simp] theorem timerLoad_timerLoad (s : State) (T : TimerId) (b c : Byte) :
    (s.timerLoad T b).timerLoad T c = s.timerLoad T c := by
  cases T <;> rfl

@[simp] theorem timerLoad_timerGet (s : State) (T : TimerId) : s.timerLoad T (s.timerGet T) = s := by
  cases T <;> rfl

@[simp] theorem timerLoad_tclkState (s : State) (T : TimerId) (b : Byte) :
    (s.timerLoad T b).tclkState = s.tclkState := by
  cases T <;> rfl

@[simp] theorem timerLoad_tclkPaused (s : State) (T : TimerId) (b : Byte) :
    (s.timerLoad T b).tclkPaused = s.tclkPaused := by
  cases T <;> rfl

/-! ## Ticks (R241) -/

theorem clockOn_timerLoad (T : TimerId) (b : Byte) (h : s.ClockOn) : (s.timerLoad T b).ClockOn :=
  ⟨(timerLoad_tclkState s T b).trans h.1, (timerLoad_tclkPaused s T b).trans h.2⟩

theorem land_tick (T : TimerId) (h : s.ClockOn) : s.land [T.tick] = s.timerLoad T (tickByte (s.timerGet T)) := by
  have hon : s.agentView.ticking = true := (ticking_iff s.agentView).mpr h
  cases T <;> simp only [land_eq, List.foldl, TimerId.tick, AgentView.apply, if_pos hon] <;> rfl

/-- A clock that is not running or is paused drops the tick. -/
theorem land_tick_dropped (T : TimerId) (h : ¬ s.ClockOn) : s.land [T.tick] = s := by
  have hoff : ¬ s.agentView.ticking = true := mt (ticking_iff s.agentView).mp h
  cases T <;> simp only [land_eq, List.foldl, TimerId.tick, AgentView.apply, if_neg hoff] <;> rfl

/-- Ticks of a running clock load the counter with what is left of it, 0 when it has run out. -/
theorem land_ticks (T : TimerId) (n : Nat) (h : s.ClockOn) :
    ∃ b, s.land (List.replicate n T.tick) = s.timerLoad T b ∧ b.toNat = (s.timerGet T).toNat - n := by
  induction n generalizing s with
  | zero => exact ⟨s.timerGet T, (timerLoad_timerGet s T).symm, rfl⟩
  | succ n ih =>
    obtain ⟨b, hland, hb⟩ := ih (clockOn_timerLoad T (tickByte (s.timerGet T)) h)
    refine ⟨b, ?_, ?_⟩
    · rw [List.replicate_succ, land_cons, land_tick T h, hland, timerLoad_timerLoad]
    · rw [hb, timerGet_timerLoad, tickByte_toNat]
      omega

theorem land_ticks_dropped {ticks : List AgentEvent} (hticks : ∀ e ∈ ticks, e = .tickDT ∨ e = .tickST)
    (h : ¬ s.ClockOn) : s.land ticks = s := by
  induction ticks with
  | nil => rfl
  | cons e es ih =>
    obtain ⟨he, hes⟩ := List.forall_mem_cons.mp hticks
    have htick : s.land [e] = s := by
      obtain rfl | rfl := he
      · exact land_tick_dropped .DT h
      · exact land_tick_dropped .ST h
    rw [land_cons, htick, ih hes]

/-! ## Pause and resume (R243, R244) -/

theorem land_pause_tclkPaused (s : State) : (s.land [.tclkPause]).tclkPaused = true := rfl

/-- The resume overwrites the one field that the pause wrote. -/
theorem land_pause_resume (s : State) : (s.land [.tclkPause]).land [.tclkResume] = s.land [.tclkResume] := rfl

theorem land_pause_ticks {ticks : List AgentEvent} (s : State) (hticks : ∀ e ∈ ticks, e = .tickDT ∨ e = .tickST) :
    s.land (.tclkPause :: ticks) = s.land [.tclkPause] := by
  rw [land_cons]
  refine land_ticks_dropped hticks fun ⟨_, hunpaused⟩ => ?_
  rw [land_pause_tclkPaused] at hunpaused
  cases hunpaused

/-- After the resume nothing is left of the pause, nor of the ticks that fell due in it. -/
theorem land_pause_ticks_resume {ticks : List AgentEvent} (s : State)
    (hticks : ∀ e ∈ ticks, e = .tickDT ∨ e = .tickST) (es : List AgentEvent) :
    s.land (.tclkPause :: ticks ++ .tclkResume :: es) = (s.land [.tclkResume]).land es := by
  rw [land_append, land_pause_ticks s hticks, land_cons, land_pause_resume]

/-- A running clock that is resumed ticks: the counter as it was before, less 1. -/
theorem land_resume_tick_timerGet (T : TimerId) (h : s.tclkState = .running) :
    (((s.land [.tclkResume]).land [T.tick]).timerGet T).toNat = (s.timerGet T).toNat - 1 := by
  have hon : (s.land [.tclkResume]).ClockOn := ⟨h, rfl⟩
  have hcounter : (s.land [.tclkResume]).timerGet T = s.timerGet T := by cases T <;> rfl
  rw [land_tick T hon, timerGet_timerLoad, tickByte_toNat, hcounter]

/-! ## Shutdown and start (R245, R246) -/

theorem land_shutdown (s : State) : s.land [.tclkShutdown] = { s with tclkState := .stopped } := rfl

theorem frame_tclkState (s : State) (c : TclkState) : Frame [.tclk] s { s with tclkState := c } := by
  intro p hp; cases p <;> simp_all [Part.same, State.getV, State.memRead]

theorem land_stopped_timerGet (evs : List AgentEvent) (T : TimerId) (h : s.tclkState = .stopped) :
    (s.land evs).timerGet T = s.timerGet T := by
  obtain ⟨-, hdt, hst⟩ := land_stopped evs h
  cases T with
  | DT => exact hdt
  | ST => exact hst

theorem tclkStart_of_created (h : s.tclkState = .created) : s.tclkStart = { s with tclkState := .running } := by
  rw [State.tclkStart, h]

theorem tclkStart_of_ne_created (h : s.tclkState ≠ .created) : s.tclkStart = s := by
  unfold State.tclkStart
  split
  · exact absurd ‹_› h
  · rfl
  · rfl

theorem tclkStart_tclkPaused (s : State) : s.tclkStart.tclkPaused = s.tclkPaused := by
  unfold State.tclkStart
  split <;> rfl

theorem frame_tclkStart (s : State) : Frame [.tclk] s s.tclkStart := by
  by_cases h : s.tclkState = .created
  · rw [tclkStart_of_created h]
    exact frame_tclkState s .running
  · rw [tclkStart_of_ne_created h]
    exact Frame.refl _ s

/-! ## The tone and the keys (R248, R256) -/

theorem tone_iff : s.tone = true ↔ s.st.toNat ≠ 0 := by
  rw [State.tone, bne_iff_ne, ne_eq, ← BitVec.toNat_inj]
  rfl

theorem land_setPressed (s : State) (ks : Vector Bool 16) : s.land [.setPressed ks] = { s with keys := ks } := rfl

theorem frame_keys (s : State) (ks : Vector Bool 16) : Frame [.keys] s { s with keys := ks } := by
  intro p hp; cases p <;> simp_all [Part.same, State.getV, State.memRead]

end Sys2Proof.Machine
end

section
/-! The obligations on faults, the timer clock, the host and the agents' schedule (60_exceptions). -/

open Sys2Proof Sys2Proof.Machine

/-- Settles O9: a running engine halts at an unrecognised word, in a CALL or in a RET, and each enters its fault. -/
theorem faultEntryIsPrecise : Obligations.FaultEntryIsPrecise := by
  unfold Obligations.FaultEntryIsPrecise
  intro s t hrunning h hhalted
  obtain ⟨hc, -⟩ | ⟨-, ⟨e, hd⟩, he⟩ | ⟨-, i, hd, he⟩ := executeOne_cases s
  · rw [hrunning] at hc
    cases hc
  · rw [he] at h
    cases h
    exact ⟨haltedAt_enterFault s _ _ _, .inl ⟨rfl, recognised_of_decodeWord_error hd⟩⟩
  · rw [he] at h
    obtain ⟨nnn, rfl, hsp, rfl⟩ | ⟨rfl, hsp, rfl⟩ := exec_halts hrunning hd h hhalted
    · exact ⟨haltedAt_enterFault s _ _ _, .inr (.inl ⟨rfl, hsp, nnn, hd⟩)⟩
    · exact ⟨haltedAt_enterFault s _ _ _, .inr (.inr ⟨rfl, hsp, hd⟩)⟩

/-- Settles O10: a halted engine leaves what has landed as it stands, the two ticks among it. -/
theorem haltedEngineStaysHaltedWhileTimersTick : Obligations.HaltedEngineStaysHaltedWhileTimersTick := by
  unfold Obligations.HaltedEngineStaysHaltedWhileTimersTick
  intro s hhalted
  refine ⟨executeOne_halted hhalted, executeOne_halted (s := s.arrived) hhalted, hhalted, rfl, frame_arrived s,
    fun hclock hunpaused => ?_⟩
  have hon : s.takeSlot.ClockOn := ⟨hclock, hunpaused⟩
  have hland : s.takeSlot.land [TimerId.DT.tick, TimerId.ST.tick] =
      (s.takeSlot.timerLoad .DT (tickByte s.dt)).timerLoad .ST (tickByte s.st) := by
    rw [land_cons, land_tick .DT hon, land_tick .ST (clockOn_timerLoad .DT _ hon)]
    rfl
  exact ⟨_, (congrArg State.executeOne hland).trans (executeOne_halted hhalted), hhalted, tickByte_toNat s.dt,
    tickByte_toNat s.st⟩

/-- Settles O11: only CALL and RET can miss a stack slot, and only they can write the status fields. -/
theorem onlyCallAndRetCanFault : Obligations.OnlyCallAndRetCanFault := by
  unfold Obligations.OnlyCallAndRetCanFault
  intro i s hcall hret
  obtain ⟨t, h⟩ := exec_answers_of_not_call_ret s hcall hret
  exact ⟨t, h, exec_frame h .core (core_not_mem_writes hcall hret)⟩

/-- Settles O42, by induction on the number of ticks: together they are one load of DT. -/
theorem ticksCountDownAndStopAtZero : Obligations.TicksCountDownAndStopAtZero := by
  unfold Obligations.TicksCountDownAndStopAtZero
  intro n s hclock hunpaused
  obtain ⟨b, hland, hb⟩ := land_ticks .DT n ⟨hclock, hunpaused⟩
  rw [show s.land (List.replicate n .tickDT) = s.timerLoad .DT b from hland]
  exact ⟨hb, frame_loadDT s b⟩

/-- Settles O43: each tick in the pause is dropped, and the resume overwrites what the pause wrote. -/
theorem pausedTicksAreDropped : Obligations.PausedTicksAreDropped := by
  unfold Obligations.PausedTicksAreDropped
  intro ticks s hticks
  refine ⟨land_pause_ticks_resume s hticks [], ?_, rfl, rfl, fun hclock => ⟨?_, ?_⟩⟩
  · rw [land_pause_ticks s hticks, land_pause_tclkPaused]
  · rw [land_pause_ticks_resume s hticks]
    exact land_resume_tick_timerGet .DT hclock
  · rw [land_pause_ticks_resume s hticks]
    exact land_resume_tick_timerGet .ST hclock

/-- Settles O44: a stopped clock stays stopped and keeps the counters, those loaded after the shutdown too. -/
theorem shutdownStopsTheClockForGood : Obligations.ShutdownStopsTheClockForGood := by
  unfold Obligations.ShutdownStopsTheClockForGood
  intro evs s
  have hstopped : (s.land [.tclkShutdown]).tclkState = .stopped := rfl
  obtain ⟨-, hdt, hst⟩ := land_stopped evs hstopped
  rw [land_cons s .tclkShutdown evs]
  refine ⟨hstopped, rfl, land_shutdown s ▸ frame_tclkState s .stopped, rfl, hdt, hst, fun h T b => ?_⟩
  have hloaded : (s.timerLoad T b).tclkState = .stopped := (timerLoad_tclkState s T b).trans h
  obtain ⟨hfinal, -⟩ := land_stopped evs hloaded
  exact ⟨(land_stopped_timerGet evs T hloaded).trans (timerGet_timerLoad s T b), hfinal⟩

/-- Settles O45: the engine writes neither of the clock's control parts, and what lands leaves its state or stops it. -/
theorem clockStateMovesForwardOnly : Obligations.ClockStateMovesForwardOnly := by
  unfold Obligations.ClockStateMovesForwardOnly
  intro s t
  refine ⟨fun h => ?_, fun h hstopped => ?_, fun i h => exec_frame_engineParts h .tclk (by decide), fun h => ?_,
    tclkStart_of_ne_created, tclkStart_tclkPaused s, frame_tclkStart s, rfl⟩
  · rw [step_tclkState h]
    exact land_tclkState_cases (s := s.takeSlot) s.landing
  · obtain ⟨hfinal, -⟩ := land_stopped (s := s.takeSlot) s.landing hstopped
    exact (step_tclkState h).trans hfinal
  · rw [tclkStart_of_created h]

/-- Settles O48: set_pressed writes the keys alone, and no engine step writes them. -/
theorem setPressedReplacesAllKeys : Obligations.SetPressedReplacesAllKeys := by
  unfold Obligations.SetPressedReplacesAllKeys
  intro ks s
  rw [land_setPressed]
  exact ⟨rfl, frame_keys s ks, fun i t h => exec_frame_engineParts h .keys (by decide)⟩

/-- Settles O49, from the search of the keys in rising order. -/
theorem firstPressedIsTheLowest : Obligations.FirstPressedIsTheLowest := by
  unfold Obligations.FirstPressedIsTheLowest
  exact fun s => ⟨firstPressed_none s, fun k => firstPressed_some s⟩

/-- Settles O51, by induction on the number of steps: a step takes the first arrival and leaves the others in order. -/
theorem runIsTheScheduledRun : Obligations.RunIsTheScheduledRun := by
  unfold Obligations.RunIsTheScheduledRun
  exact core_run_eq_runWith

/-- Settles O8: what lands changes neither the word at PC nor PC, so the engine enters the fault for that word. -/
theorem unrecognisedWordHaltsTheEngine : Obligations.UnrecognisedWordHaltsTheEngine := by
  unfold Obligations.UnrecognisedWordHaltsTheEngine
  exact fun s hrunning hword => ⟨_, step_unrecognised hrunning hword, haltedAt_enterFault s.arrived _ _ _, rfl⟩

/-- Settles O41: a tick is one load of its counter while the clock ticks, and nothing otherwise. -/
theorem tickTakesOneNeverBelowZero : Obligations.TickTakesOneNeverBelowZero := by
  unfold Obligations.TickTakesOneNeverBelowZero
  intro s
  refine ⟨fun hclock hunpaused => ?_, fun h => ⟨land_tick_dropped .DT h, land_tick_dropped .ST h⟩⟩
  have hdt : s.land [.tickDT] = s.timerLoad .DT (tickByte s.dt) := land_tick .DT ⟨hclock, hunpaused⟩
  have hst : s.land [.tickST] = s.timerLoad .ST (tickByte s.st) := land_tick .ST ⟨hclock, hunpaused⟩
  rw [hdt, hst]
  exact ⟨tickByte_toNat s.dt, frame_loadDT s _, tickByte_toNat s.st, frame_loadST s _⟩

/-- Settles O47: the tick at 1 leaves 0 in ST. -/
theorem toneFollowsSoundTimer : Obligations.ToneFollowsSoundTimer := by
  unfold Obligations.ToneFollowsSoundTimer
  refine fun s => ⟨tone_iff, fun hclock hunpaused hone => ?_⟩
  have hland : s.land [.tickST] = s.timerLoad .ST (tickByte s.st) := land_tick .ST ⟨hclock, hunpaused⟩
  rw [hland, hone]
  rfl

end

section
/-! SUPPORT. The bytes of the font table, glyph by glyph, and what the reset memory reads as (20_memory R56, R57). -/

namespace Sys2Proof

/-- In blocks of one length laid end to end, block `d` begins at `c * d`. -/
theorem getElem?_flatten_of_length {α : Type} {blocks : List (List α)} {c d k : Nat} {block : List α} {b : α}
    (hlen : ∀ l ∈ blocks, l.length = c) (hd : blocks[d]? = some block) (hk : block[k]? = some b) :
    blocks.flatten[c * d + k]? = some b := by
  induction blocks generalizing d with
  | nil => cases hd
  | cons l ls ih =>
    obtain ⟨hl, hls⟩ := List.forall_mem_cons.mp hlen
    rw [List.flatten_cons]
    cases d with
    | zero =>
      cases hd
      obtain ⟨hlt, -⟩ := List.getElem?_eq_some_iff.mp hk
      rw [Nat.mul_zero, Nat.zero_add, List.getElem?_append_left hlt, hk]
    | succ d =>
      have hoff : c * (d + 1) + k = l.length + (c * d + k) := by rw [hl, Nat.mul_succ]; omega
      rw [hoff, List.getElem?_append_right (Nat.le_add_right _ _), Nat.add_sub_cancel_left]
      exact ih hls hd

end Sys2Proof

namespace Sys2Proof.Machine

theorem memRead_reset (a : Address) : State.reset.memRead a = initialByte a.toNat := rfl

theorem initialByte_of_font {a : Nat} {b : Byte} (h : fontTable[a]? = some b) : initialByte a = b := by
  rw [initialByte, List.getD_eq_getElem?_getD, h, Option.getD_some]

theorem initialByte_above_font {a : Nat} (h : fontTable.length ≤ a) : initialByte a = 0x00#8 :=
  List.getD_eq_default _ _ h

/-- The reset memory holds byte `k` of glyph `d` at `5 * d + k`, for whichever list of glyphs the table is (R57). -/
theorem memRead_reset_glyph {glyphs : List (List Byte)} {d k : Nat} {glyph : List Byte} {b : Byte}
    (hd : glyphs[d]? = some glyph) (hk : glyph[k]? = some b) (hfont : fontTable = glyphs.flatten)
    (hlen : ∀ g ∈ glyphs, g.length = Config.fontGlyphBytes) :
    State.reset.memRead (BitVec.ofNat 12 (5 * d + k)) = b := by
  have hb : fontTable[5 * d + k]? = some b := hfont ▸ getElem?_flatten_of_length hlen hd hk
  obtain ⟨hlt, -⟩ := List.getElem?_eq_some_iff.mp hb
  have hlt : 5 * d + k < 80 := hlt
  rw [memRead_reset, BitVec.toNat_ofNat, Nat.mod_eq_of_lt (by omega)]
  exact initialByte_of_font hb

/-! ## The other pieces of state at reset (10_state R20) -/

theorem reset_getV (x : Nibble) : State.reset.getV x = 0x00#8 := Vector.getElem_replicate _

theorem reset_readSlot {k : Byte} (hk : k.toNat < Config.stackDepth) : State.reset.readSlot k = some 0x000#12 :=
  (readSlot_eq_some State.reset hk).trans (congrArg some (Vector.getElem_replicate _))

theorem reset_keyPressed (k : Nibble) : State.reset.keyPressed k = false := Vector.getElem_replicate _

end Sys2Proof.Machine
end

section
/-! SUPPORT. A timer counter through one step: what lands can only lower it, and the engine writes it by its load alone
(70_reset R287). -/

namespace Sys2Proof.Machine

variable {s t : State} {T : TimerId}

/-! ## What lands -/

theorem land_timerGet_le (s : State) (T : TimerId) (evs : List AgentEvent) :
    ((s.land evs).timerGet T).toNat ≤ (s.timerGet T).toNat := by
  cases T with
  | DT => exact land_dt_le evs
  | ST => exact land_st_le evs

/-- The host leaves the clock on: no pause and no shutdown lands. -/
theorem land_clockOn {evs : List AgentEvent} (hon : s.ClockOn)
    (hleft : AgentEvent.tclkPause ∉ evs ∧ AgentEvent.tclkShutdown ∉ evs) : (s.land evs).ClockOn :=
  (ticking_iff _).mp (foldl_ticking evs ((ticking_iff s.agentView).mpr hon) hleft.1 hleft.2)

/-- A tick among what lands takes at least 1 from its counter, while the host leaves the clock on. -/
theorem land_timerGet_of_tick_mem {evs : List AgentEvent} (hon : s.ClockOn)
    (hleft : AgentEvent.tclkPause ∉ evs ∧ AgentEvent.tclkShutdown ∉ evs) (htick : T.tick ∈ evs) :
    ((s.land evs).timerGet T).toNat ≤ (s.timerGet T).toNat - 1 := by
  obtain ⟨before, after, rfl⟩ := List.append_of_mem htick
  have hon' : (s.land before).ClockOn :=
    land_clockOn hon ⟨fun h => hleft.1 (by simp [h]), fun h => hleft.2 (by simp [h])⟩
  rw [land_append, land_cons, land_tick T hon']
  calc _ ≤ (((s.land before).timerLoad T (tickByte ((s.land before).timerGet T))).timerGet T).toNat :=
        land_timerGet_le _ T after
    _ = ((s.land before).timerGet T).toNat - 1 := by rw [timerGet_timerLoad, tickByte_toNat]
    _ ≤ (s.timerGet T).toNat - 1 := Nat.sub_le_sub_right (land_timerGet_le s T before) 1

/-! ## What the engine does -/

/-- The part of the state that a counter is. -/
def TimerId.part : TimerId → Part
  | .DT => .dt
  | .ST => .st

theorem part_same_iff : T.part.same s t ↔ t.timerGet T = s.timerGet T := by
  cases T <;> rfl

theorem part_not_mem_writes {i : Instr} (hload : ∀ x, i ≠ T.loadInstr x) : T.part ∉ i.writes := by
  cases T with
  | DT =>
    cases i with
    | ldDTVx x => exact absurd rfl (hload x)
    | _ => simp [TimerId.part, Instr.writes]
  | ST =>
    cases i with
    | ldSTVx x => exact absurd rfl (hload x)
    | _ => simp [TimerId.part, Instr.writes]

theorem exec_timerGet {i : Instr} (hload : ∀ x, i ≠ T.loadInstr x) (h : exec i s = .next t) :
    t.timerGet T = s.timerGet T :=
  part_same_iff.mp (exec_frame h T.part (part_not_mem_writes hload))

theorem advancePc_timerGet (s : State) (T : TimerId) : s.advancePc.timerGet T = s.timerGet T := by
  cases T <;> rfl

theorem enterFault_timerGet (s : State) (f : FaultCondition) (w : Word) (a : Address) (T : TimerId) :
    (s.enterFault f w a).timerGet T = s.timerGet T := by
  cases T <;> rfl

/-- The engine leaves a counter as it is, unless it executes the counter's load. -/
theorem executeOne_timerGet (hload : ∀ x, s.nextInstr ≠ some (T.loadInstr x)) (h : s.executeOne = .next t) :
    t.timerGet T = s.timerGet T := by
  obtain ⟨-, he⟩ | ⟨-, -, he⟩ | ⟨hc, i, hd, he⟩ := executeOne_cases s <;> rw [he] at h
  · cases h
    rfl
  · cases h
    exact enterFault_timerGet s _ _ _ T
  · have hi : ∀ x, i ≠ T.loadInstr x := fun x e => hload x (nextInstr_eq_some.mpr ⟨hc, e ▸ hd⟩)
    exact (exec_timerGet hi h).trans (advancePc_timerGet s T)

/-! ## The whole step -/

section
variable {evs : List AgentEvent}

/-- After a step that is not its load, a counter holds what landed left of it. -/
theorem stepWith_timerGet (hload : ∀ x, s.nextInstr ≠ some (T.loadInstr x)) (h : s.stepWith evs = .next t) :
    t.timerGet T = (s.takeSlot.land evs).timerGet T :=
  executeOne_timerGet (s := s.takeSlot.land evs) hload h

theorem takeSlot_timerGet (s : State) (T : TimerId) : s.takeSlot.timerGet T = s.timerGet T := by
  cases T <;> rfl

/-- No step but its load raises a counter (70_reset R287). -/
theorem stepWith_timerGet_le (hload : ∀ x, s.nextInstr ≠ some (T.loadInstr x)) (h : s.stepWith evs = .next t) :
    (t.timerGet T).toNat ≤ (s.timerGet T).toNat := by
  rw [stepWith_timerGet hload h, ← takeSlot_timerGet s T]
  exact land_timerGet_le s.takeSlot T evs

theorem stepWith_clockOn (hon : s.ClockOn) (hleft : AgentEvent.tclkPause ∉ evs ∧ AgentEvent.tclkShutdown ∉ evs)
    (h : s.stepWith evs = .next t) : t.ClockOn := by
  obtain ⟨hstate, hpaused⟩ := executeOne_frame_engineParts (s := s.takeSlot.land evs) h .tclk (by decide)
  obtain ⟨hrunning, hunpaused⟩ := land_clockOn (s := s.takeSlot) hon hleft
  exact ⟨hstate.trans hrunning, hpaused.trans hunpaused⟩

theorem stepWith_timerGet_of_tick_mem (hload : ∀ x, s.nextInstr ≠ some (T.loadInstr x)) (hon : s.ClockOn)
    (hleft : AgentEvent.tclkPause ∉ evs ∧ AgentEvent.tclkShutdown ∉ evs) (htick : T.tick ∈ evs)
    (h : s.stepWith evs = .next t) : (t.timerGet T).toNat ≤ (s.timerGet T).toNat - 1 := by
  rw [stepWith_timerGet hload h, ← takeSlot_timerGet s T]
  exact land_timerGet_of_tick_mem (s := s.takeSlot) hon hleft htick

end

end Sys2Proof.Machine
end

section
/-! SUPPORT. Runs from a state of the invariant: they never stop, and a clock that the host leaves on stays on
(60_exceptions R247). -/

namespace Sys2Proof.Machine

variable {s t : State} {ev : Nat → List AgentEvent}

theorem runWith_step {n : Nat} (h : runWith ev n s = .next t) : runWith ev (n + 1) s = t.stepWith (ev n) := by
  rw [runWith, h]

theorem runWith_answers (hs : s.Inv) (n : Nat) : ∃ t, runWith ev n s = .next t ∧ t.Inv := by
  induction n with
  | zero => exact ⟨s, rfl, hs⟩
  | succ n ih =>
    obtain ⟨t, h, ht⟩ := ih
    rw [runWith_step h]
    exact invariantStatesAlwaysStep (ev n) t ht

/-- From a state of the invariant, the states of the run are one infinite sequence. -/
theorem exists_states_of_inv (ev : Nat → List AgentEvent) (hs : s.Inv) :
    ∃ states : Nat → State, (∀ n, runWith ev n s = .next (states n)) ∧
      ∀ n, (states n).stepWith (ev n) = .next (states (n + 1)) := by
  choose states hrun _ using fun n => runWith_answers (ev := ev) hs n
  exact ⟨states, hrun, fun n => (runWith_step (hrun n)).symm.trans (hrun (n + 1))⟩

theorem runWith_clockOn (hon : s.ClockOn) (hleft : ClockLeftOn ev) {n : Nat} (h : runWith ev n s = .next t) :
    t.ClockOn := by
  induction n generalizing t with
  | zero => cases h; exact hon
  | succ n ih =>
    rw [runWith] at h
    split at h
    · next u hu => exact stepWith_clockOn (ih hu) (hleft n) h
    · cases h
    · cases h

/-- A number that never rises and, from every point on, still falls unless it is 0, comes to 0. -/
theorem exists_eq_zero_of_antitone {f : Nat → Nat} (hf : Antitone f)
    (hfalls : ∀ k, ∃ m, k ≤ m ∧ f (m + 1) ≤ f m - 1) :
    ∃ n, f n = 0 := by
  obtain ⟨m, hm, hfall⟩ := hfalls (Function.argmin f)
  have hle : f m ≤ f (Function.argmin f) := hf hm
  have hmin : f (Function.argmin f) ≤ f (m + 1) := Function.argmin_le f (m + 1)
  exact ⟨m, by omega⟩

end Sys2Proof.Machine
end

section
/-! The obligations on reset and on the timers' hazards (70_reset_and_hazards). -/

open Sys2Proof Sys2Proof.Machine

/-- Settles O46: what lands can only lower DT, and the engine writes it by LD DT, Vx alone. -/
theorem delayTimerRisesOnlyByItsLoad : Obligations.DelayTimerRisesOnlyByItsLoad := by
  unfold Obligations.DelayTimerRisesOnlyByItsLoad
  exact fun s t h hload => stepWith_timerGet_le (T := .DT) hload h

/-- Settles O50: along the run the counter never rises, and each of the ticks that keep coming takes 1 from it. -/
theorem fairClockBringsDelayTimerToZero : Obligations.FairClockBringsDelayTimerToZero := by
  unfold Obligations.FairClockBringsDelayTimerToZero
  intro T ev s hs hfair hleft hon hload
  obtain ⟨states, hrun, hstep⟩ := exists_states_of_inv ev hs
  have hload n := hload n (states n) (hrun n)
  have hnever : Antitone fun n => ((states n).timerGet T).toNat :=
    antitone_nat_of_succ_le fun n => stepWith_timerGet_le (hload n) (hstep n)
  have hfalls k : ∃ m, k ≤ m ∧ ((states (m + 1)).timerGet T).toNat ≤ ((states m).timerGet T).toNat - 1 := by
    obtain ⟨m, hkm, htick⟩ := hfair k fun _ _ _ h => runWith_clockOn hon hleft h
    exact ⟨m, hkm, stepWith_timerGet_of_tick_mem (hload m) (runWith_clockOn hon hleft (hrun m)) (hleft m) htick
      (hstep m)⟩
  obtain ⟨n, hn⟩ := exists_eq_zero_of_antitone hnever hfalls
  exact ⟨n, states n, hrun n, BitVec.eq_of_toNat_eq hn⟩

/-- Settles O52: no byte is listed in the reset memory, so each is the font table's or 0; the rest is replicated. -/
theorem resetValues : Obligations.ResetValues := by
  unfold Obligations.ResetValues
  refine ⟨reset_getV, rfl, rfl, rfl, fun _ => reset_readSlot, rfl, rfl, rfl, rfl, rfl, rfl, rfl, rfl,
    fun a => ?above, ?font, lit_blank, reset_keyPressed⟩
  case above => exact initialByte_above_font
  case font => exact fun d k glyph b hd hk => memRead_reset_glyph hd hk (by rfl) (by decide)

end
